-- ==== Sys2Proof/Word.lean ====
section
/-! DEFINITION. The widths of the spec's values: bytes, 16-bit words, the fields of an instruction word (R8, R9,
R13), register numbers and key numbers. -/

namespace Sys2Proof

/-- 8 bits: a general register, a timer, a memory cell, the field `kk` (R8, R13). -/
abbrev Byte := BitVec 8

/-- 16 bits: an instruction word, `pc`, `I`, a stack entry (R8, R90). -/
abbrev Word16 := BitVec 16

/-- 12 bits: the field `nnn` (R13). -/
abbrev Addr12 := BitVec 12

/-- 4 bits: the field `n`, and the bits an instruction ignores (R13, R96). -/
abbrev Nibble := BitVec 4

/-- The number of a general register, 0 to 15, every value legal (R21, R93). -/
abbrev RegId := Fin 16

/-- The index of a logical key, 0 to 15 (R29, R30, R258). -/
abbrev Key := Fin 16

/-- Register 0xF, which some instructions write as a flag (R22). -/
abbrev VF : RegId := 15

end Sys2Proof
end

