-- ==== Sys2Proof/Syntax.lean ====
section
/-! DEFINITION. The instructions: one constructor for each of the 38 rows of spec/opcode_table.json, with the
operand fields of its format (R91, R92, R95, R97). Together they cover all 65536 words, each word once. -/

namespace Sys2Proof

/-- One constructor per row of spec/opcode_table.json. `x`, `y` are register numbers, `kk` an 8-bit immediate,
`nnn` a 12-bit address, `n` a 4-bit count or selector (R13). -/
inductive Instr where
  /-- `00E0` `CLS` (R210). -/
  | cls
  /-- `00EE` `RET` (R140). -/
  | ret
  /-- `0nnn` `SYS nnn`, every other word of `op = 0`: no effect but `pc` and a diagnostic (R126). -/
  | sys (nnn : Addr12)
  /-- `1nnn` `JP nnn` (R142). -/
  | jp (nnn : Addr12)
  /-- `2nnn` `CALL nnn` (R146). -/
  | call (nnn : Addr12)
  /-- `3xkk` `SE Vx, kk` (R148). -/
  | seImm (x : RegId) (kk : Byte)
  /-- `4xkk` `SNE Vx, kk` (R149). -/
  | sneImm (x : RegId) (kk : Byte)
  /-- `5xy_` `SE Vx, Vy` (R150). `z` is the low nibble, which no meaning reads (R96; log 7). -/
  | seReg (x y : RegId) (z : Nibble)
  /-- `6xkk` `LD Vx, kk` (R160). -/
  | ldImm (x : RegId) (kk : Byte)
  /-- `7xkk` `ADD Vx, kk` (R162). -/
  | addImm (x : RegId) (kk : Byte)
  /-- `8xy0` `LD Vx, Vy` (R164). -/
  | ldReg (x y : RegId)
  /-- `8xy1` `OR Vx, Vy` (R166). -/
  | orReg (x y : RegId)
  /-- `8xy2` `AND Vx, Vy` (R167). -/
  | andReg (x y : RegId)
  /-- `8xy3` `XOR Vx, Vy` (R168). -/
  | xorReg (x y : RegId)
  /-- `8xy4` `ADD Vx, Vy` (R170). -/
  | addReg (x y : RegId)
  /-- `8xy5` `SUB Vx, Vy` (R172). -/
  | subReg (x y : RegId)
  /-- `8xy6` `SHR Vx, Vy` (R174). -/
  | shrReg (x y : RegId)
  /-- `8xy7` `SUBN Vx, Vy` (R176). -/
  | subnReg (x y : RegId)
  /-- `8xyE` `SHL Vx, Vy` (R178). -/
  | shlReg (x y : RegId)
  /-- `9xy_` `SNE Vx, Vy` (R151). `z` is the low nibble, which no meaning reads (R96; log 7). -/
  | sneReg (x y : RegId) (z : Nibble)
  /-- `Annn` `LD I, nnn` (R190). -/
  | ldI (nnn : Addr12)
  /-- `Bnnn` `JP V0, nnn` (R152). -/
  | jpV0 (nnn : Addr12)
  /-- `Cxkk` `RND Vx, kk` (R180). -/
  | rnd (x : RegId) (kk : Byte)
  /-- `Dxyn` `DRW Vx, Vy, n` (R212). -/
  | drw (x y : RegId) (n : Nibble)
  /-- `Ex9E` `SKP Vx` (R240). -/
  | skp (x : RegId)
  /-- `ExA1` `SKNP Vx` (R242). -/
  | sknp (x : RegId)
  /-- `Fx07` `LD Vx, DT` (R250). -/
  | ldVxDT (x : RegId)
  /-- `Fx0A` `LD Vx, K` (R246). -/
  | ldVxK (x : RegId)
  /-- `Fx15` `LD DT, Vx` (R252). -/
  | ldDTVx (x : RegId)
  /-- `Fx18` `LD ST, Vx` (R254). -/
  | ldSTVx (x : RegId)
  /-- `Fx1E` `ADD I, Vx` (R192). -/
  | addI (x : RegId)
  /-- `Fx29` `LD F, Vx` (R194). -/
  | ldF (x : RegId)
  /-- `Fx33` `LD B, Vx` (R196). -/
  | ldB (x : RegId)
  /-- `Fx55` `LD [I], Vx` (R198). -/
  | storeBlock (x : RegId)
  /-- `Fx65` `LD Vx, [I]` (R200). -/
  | loadBlock (x : RegId)
  /-- `8xyn` with a selector `n` no row names (R97 (b), R126). -/
  | unrec8 (x y : RegId) (n : Nibble)
  /-- `Exkk` with a selector `kk` no row names (R97 (c), R126). -/
  | unrecE (x : RegId) (kk : Byte)
  /-- `Fxkk` with a selector `kk` no row names (R97 (d), R126). -/
  | unrecF (x : RegId) (kk : Byte)
  deriving DecidableEq, Repr

end Sys2Proof
end

