-- ==== Sys2Proof/WellFormed.lean ====
section
/-! DEFINITION. The checks an instruction passes to have a word of its own. The operand types carry every bound
(register numbers, widths); what is left is that a row for the rest of a selector space does not hold a selector
that another row names (R97, R99). -/

namespace Sys2Proof

/-- The selectors `nnn` of `op = 0x0` that name an instruction: `CLS` and `RET` (R95). -/
def selectors0 : List Addr12 := [0x0E0, 0x0EE]

/-- The selectors `n` of `op = 0x8` that name an instruction (R95). -/
def selectors8 : List Nibble := [0x0, 0x1, 0x2, 0x3, 0x4, 0x5, 0x6, 0x7, 0xE]

/-- The selectors `kk` of `op = 0xE` that name an instruction (R95). -/
def selectorsE : List Byte := [0x9E, 0xA1]

/-- The selectors `kk` of `op = 0xF` that name an instruction (R95). -/
def selectorsF : List Byte := [0x07, 0x0A, 0x15, 0x18, 0x1E, 0x29, 0x33, 0x55, 0x65]

/-- The instruction has a word that stands for it and for no other (R97, R99). -/
def Instr.wellFormed : Instr → Bool
  | .sys nnn => !selectors0.contains nnn
  | .unrec8 _ _ n => !selectors8.contains n
  | .unrecE _ kk => !selectorsE.contains kk
  | .unrecF _ kk => !selectorsF.contains kk
  | .cls => true
  | .ret => true
  | .jp _ => true
  | .call _ => true
  | .seImm _ _ => true
  | .sneImm _ _ => true
  | .seReg _ _ _ => true
  | .ldImm _ _ => true
  | .addImm _ _ => true
  | .ldReg _ _ => true
  | .orReg _ _ => true
  | .andReg _ _ => true
  | .xorReg _ _ => true
  | .addReg _ _ => true
  | .subReg _ _ => true
  | .shrReg _ _ => true
  | .subnReg _ _ => true
  | .shlReg _ _ => true
  | .sneReg _ _ _ => true
  | .ldI _ => true
  | .jpV0 _ => true
  | .rnd _ _ => true
  | .drw _ _ _ => true
  | .skp _ => true
  | .sknp _ => true
  | .ldVxDT _ => true
  | .ldVxK _ => true
  | .ldDTVx _ => true
  | .ldSTVx _ => true
  | .addI _ => true
  | .ldF _ => true
  | .ldB _ => true
  | .storeBlock _ => true
  | .loadBlock _ => true

/-- The rows of rule R126, whose only effects are `pc` and a diagnostic (R97, R99): `SYS` and the three rows for
the rest of a selector space. -/
def Instr.unrecognised : Instr → Bool
  | .sys _ => true
  | .unrec8 _ _ _ => true
  | .unrecE _ _ => true
  | .unrecF _ _ => true
  | .cls => false
  | .ret => false
  | .jp _ => false
  | .call _ => false
  | .seImm _ _ => false
  | .sneImm _ _ => false
  | .seReg _ _ _ => false
  | .ldImm _ _ => false
  | .addImm _ _ => false
  | .ldReg _ _ => false
  | .orReg _ _ => false
  | .andReg _ _ => false
  | .xorReg _ _ => false
  | .addReg _ _ => false
  | .subReg _ _ => false
  | .shrReg _ _ => false
  | .subnReg _ _ => false
  | .shlReg _ _ => false
  | .sneReg _ _ _ => false
  | .ldI _ => false
  | .jpV0 _ => false
  | .rnd _ _ => false
  | .drw _ _ _ => false
  | .skp _ => false
  | .sknp _ => false
  | .ldVxDT _ => false
  | .ldVxK _ => false
  | .ldDTVx _ => false
  | .ldSTVx _ => false
  | .addI _ => false
  | .ldF _ => false
  | .ldB _ => false
  | .storeBlock _ => false
  | .loadBlock _ => false

end Sys2Proof
end

