-- ==== Sys2Proof/Decode.lean ====
section
/-! DEFINITION. The instruction decoder (R90 to R99, R123), total over all 65536 words, then the encoder written from
the same patterns (R95), and the opcode table as data with the reading rule of R99. -/

namespace Sys2Proof

/-! ### The six fields of a word (R91) -/

/-- `op`, bits 15:12. -/
def fieldOp (w : Word16) : Nibble := w.extractLsb' 12 4
/-- `x`, bits 11:8, as a register number. -/
def fieldX (w : Word16) : RegId := (w.extractLsb' 8 4).toFin
/-- `y`, bits 7:4, as a register number. -/
def fieldY (w : Word16) : RegId := (w.extractLsb' 4 4).toFin
/-- `n`, bits 3:0 (the source's `funct`). -/
def fieldN (w : Word16) : Nibble := w.extractLsb' 0 4
/-- `kk`, bits 7:0 (the source's `immediate`). -/
def fieldKK (w : Word16) : Byte := w.extractLsb' 0 8
/-- `nnn`, bits 11:0 (the source's `address`). -/
def fieldNNN (w : Word16) : Addr12 := w.extractLsb' 0 12

/-! ### Second level of the dispatch (R94) -/

/-- `op = 0x0` selects by the whole `nnn`. -/
def decode0 (nnn : Addr12) : Instr :=
  if nnn = 0x0E0 then .cls
  else if nnn = 0x0EE then .ret
  else .sys nnn

/-- `op = 0x8` selects by `n`. -/
def decode8 (x y : RegId) (n : Nibble) : Instr :=
  if n = 0x0 then .ldReg x y
  else if n = 0x1 then .orReg x y
  else if n = 0x2 then .andReg x y
  else if n = 0x3 then .xorReg x y
  else if n = 0x4 then .addReg x y
  else if n = 0x5 then .subReg x y
  else if n = 0x6 then .shrReg x y
  else if n = 0x7 then .subnReg x y
  else if n = 0xE then .shlReg x y
  else .unrec8 x y n

/-- `op = 0xE` selects by `kk`. -/
def decodeE (x : RegId) (kk : Byte) : Instr :=
  if kk = 0x9E then .skp x
  else if kk = 0xA1 then .sknp x
  else .unrecE x kk

/-- `op = 0xF` selects by `kk`. -/
def decodeF (x : RegId) (kk : Byte) : Instr :=
  if kk = 0x07 then .ldVxDT x
  else if kk = 0x0A then .ldVxK x
  else if kk = 0x15 then .ldDTVx x
  else if kk = 0x18 then .ldSTVx x
  else if kk = 0x1E then .addI x
  else if kk = 0x29 then .ldF x
  else if kk = 0x33 then .ldB x
  else if kk = 0x55 then .storeBlock x
  else if kk = 0x65 then .loadBlock x
  else .unrecF x kk

/-- The instruction a word stands for: first `op`, then the secondary selector (R94, R95, R97). It depends on the
word only and cannot fail (R91, R123, R124). -/
def decode (w : Word16) : Instr :=
  if fieldOp w = 0x0 then decode0 (fieldNNN w)
  else if fieldOp w = 0x1 then .jp (fieldNNN w)
  else if fieldOp w = 0x2 then .call (fieldNNN w)
  else if fieldOp w = 0x3 then .seImm (fieldX w) (fieldKK w)
  else if fieldOp w = 0x4 then .sneImm (fieldX w) (fieldKK w)
  else if fieldOp w = 0x5 then .seReg (fieldX w) (fieldY w) (fieldN w)
  else if fieldOp w = 0x6 then .ldImm (fieldX w) (fieldKK w)
  else if fieldOp w = 0x7 then .addImm (fieldX w) (fieldKK w)
  else if fieldOp w = 0x8 then decode8 (fieldX w) (fieldY w) (fieldN w)
  else if fieldOp w = 0x9 then .sneReg (fieldX w) (fieldY w) (fieldN w)
  else if fieldOp w = 0xA then .ldI (fieldNNN w)
  else if fieldOp w = 0xB then .jpV0 (fieldNNN w)
  else if fieldOp w = 0xC then .rnd (fieldX w) (fieldKK w)
  else if fieldOp w = 0xD then .drw (fieldX w) (fieldY w) (fieldN w)
  else if fieldOp w = 0xE then decodeE (fieldX w) (fieldKK w)
  else decodeF (fieldX w) (fieldKK w)

/-! ### From and to bytes (R63, R90) -/

/-- Why a byte sequence gives no instruction. Every 16-bit word decodes (R91), so there is one reason. -/
inductive DecodeError where
  /-- Fewer than the 2 bytes that every instruction has (R90). -/
  | truncated
  deriving DecidableEq, Repr

/-- Big-endian: the byte at the lower address holds bits 15:8 (R63, R121). -/
def wordOfBytes (hi lo : Byte) : Word16 := hi ++ lo

/-- The byte of a word at its lower address, bits 15:8. -/
def highByte (w : Word16) : Byte := w.extractLsb' 8 8

/-- The byte of a word at its higher address, bits 7:0. -/
def lowByte (w : Word16) : Byte := w.extractLsb' 0 8

/-- The first instruction of a byte sequence and the bytes after it: exactly 2 bytes are consumed (R90). -/
def decodeBytes : List Byte → Except DecodeError (Instr × List Byte)
  | hi :: lo :: rest => .ok (decode (wordOfBytes hi lo), rest)
  | [_] => .error .truncated
  | [] => .error .truncated

/-- The instruction the decoder reads from the table's `nbits` bits `w`, laid out as the hardware stores them.
Every row has 16 bits (R90); a row given fewer bits leaves the higher ones 0. -/
def decodeTableWord (nbits w : Nat) : Option Instr :=
  let word : Word16 := BitVec.ofNat 16 (w % 2 ^ nbits)
  if 16 < nbits then none
  else match decodeBytes [highByte word, lowByte word] with
    | .ok (i, _) => some i
    | .error _ => none

/-! ### The encoder (R92, R95) -/

/-- A register number as a field of 4 bits. -/
def regField (r : RegId) : Nibble := BitVec.ofFin r

/-- Formats FIXED and NNN: `op`, then 12 bits. -/
def wordNNN (op : Nibble) (nnn : Addr12) : Word16 := op ++ nnn

/-- Formats XKK and XSEL: `op`, `x`, then 8 bits. -/
def wordXKK (op : Nibble) (x : RegId) (kk : Byte) : Word16 := op ++ regField x ++ kk

/-- Formats XY, XYF and XYN: `op`, `x`, `y`, then 4 bits. -/
def wordXYN (op : Nibble) (x y : RegId) (n : Nibble) : Word16 := op ++ regField x ++ regField y ++ n

/-- The word of an instruction, by the pattern of its row (R95). An ill-formed instruction's word is another
instruction's. -/
def encode : Instr → Word16
  | .cls => wordNNN 0x0 0x0E0
  | .ret => wordNNN 0x0 0x0EE
  | .sys nnn => wordNNN 0x0 nnn
  | .jp nnn => wordNNN 0x1 nnn
  | .call nnn => wordNNN 0x2 nnn
  | .seImm x kk => wordXKK 0x3 x kk
  | .sneImm x kk => wordXKK 0x4 x kk
  | .seReg x y z => wordXYN 0x5 x y z
  | .ldImm x kk => wordXKK 0x6 x kk
  | .addImm x kk => wordXKK 0x7 x kk
  | .ldReg x y => wordXYN 0x8 x y 0x0
  | .orReg x y => wordXYN 0x8 x y 0x1
  | .andReg x y => wordXYN 0x8 x y 0x2
  | .xorReg x y => wordXYN 0x8 x y 0x3
  | .addReg x y => wordXYN 0x8 x y 0x4
  | .subReg x y => wordXYN 0x8 x y 0x5
  | .shrReg x y => wordXYN 0x8 x y 0x6
  | .subnReg x y => wordXYN 0x8 x y 0x7
  | .shlReg x y => wordXYN 0x8 x y 0xE
  | .sneReg x y z => wordXYN 0x9 x y z
  | .ldI nnn => wordNNN 0xA nnn
  | .jpV0 nnn => wordNNN 0xB nnn
  | .rnd x kk => wordXKK 0xC x kk
  | .drw x y n => wordXYN 0xD x y n
  | .skp x => wordXKK 0xE x 0x9E
  | .sknp x => wordXKK 0xE x 0xA1
  | .ldVxDT x => wordXKK 0xF x 0x07
  | .ldVxK x => wordXKK 0xF x 0x0A
  | .ldDTVx x => wordXKK 0xF x 0x15
  | .ldSTVx x => wordXKK 0xF x 0x18
  | .addI x => wordXKK 0xF x 0x1E
  | .ldF x => wordXKK 0xF x 0x29
  | .ldB x => wordXKK 0xF x 0x33
  | .storeBlock x => wordXKK 0xF x 0x55
  | .loadBlock x => wordXKK 0xF x 0x65
  | .unrec8 x y n => wordXYN 0x8 x y n
  | .unrecE x kk => wordXKK 0xE x kk
  | .unrecF x kk => wordXKK 0xF x kk

/-- The two bytes of an instruction, in address order (R63). -/
def encodeBytes (i : Instr) : List Byte := [highByte (encode i), lowByte (encode i)]

/-! ### The opcode table as data (R99) -/

/-- A row of spec/opcode_table.json: `(w AND mask) = value` says the word matches it. -/
structure OpcodeRow where
  mask : Word16
  value : Word16
  deriving DecidableEq, Repr

/-- A word matches a row (R99). -/
def OpcodeRow.matches (r : OpcodeRow) (w : Word16) : Bool := w &&& r.mask == r.value

/-- How many 1 bits a row's mask has: of two matching rows the one with more wins (R99). -/
def OpcodeRow.weight (r : OpcodeRow) : Nat := ((List.range 16).filter fun i => r.mask.getLsbD i).length

/-- The row of an instruction: the columns `mask` and `match` of spec/opcode_table.json. -/
def opcodeRow : Instr → OpcodeRow
  | .cls => ⟨0xFFFF, 0x00E0⟩
  | .ret => ⟨0xFFFF, 0x00EE⟩
  | .sys _ => ⟨0xF000, 0x0000⟩
  | .jp _ => ⟨0xF000, 0x1000⟩
  | .call _ => ⟨0xF000, 0x2000⟩
  | .seImm _ _ => ⟨0xF000, 0x3000⟩
  | .sneImm _ _ => ⟨0xF000, 0x4000⟩
  | .seReg _ _ _ => ⟨0xF000, 0x5000⟩
  | .ldImm _ _ => ⟨0xF000, 0x6000⟩
  | .addImm _ _ => ⟨0xF000, 0x7000⟩
  | .ldReg _ _ => ⟨0xF00F, 0x8000⟩
  | .orReg _ _ => ⟨0xF00F, 0x8001⟩
  | .andReg _ _ => ⟨0xF00F, 0x8002⟩
  | .xorReg _ _ => ⟨0xF00F, 0x8003⟩
  | .addReg _ _ => ⟨0xF00F, 0x8004⟩
  | .subReg _ _ => ⟨0xF00F, 0x8005⟩
  | .shrReg _ _ => ⟨0xF00F, 0x8006⟩
  | .subnReg _ _ => ⟨0xF00F, 0x8007⟩
  | .shlReg _ _ => ⟨0xF00F, 0x800E⟩
  | .sneReg _ _ _ => ⟨0xF000, 0x9000⟩
  | .ldI _ => ⟨0xF000, 0xA000⟩
  | .jpV0 _ => ⟨0xF000, 0xB000⟩
  | .rnd _ _ => ⟨0xF000, 0xC000⟩
  | .drw _ _ _ => ⟨0xF000, 0xD000⟩
  | .skp _ => ⟨0xF0FF, 0xE09E⟩
  | .sknp _ => ⟨0xF0FF, 0xE0A1⟩
  | .ldVxDT _ => ⟨0xF0FF, 0xF007⟩
  | .ldVxK _ => ⟨0xF0FF, 0xF00A⟩
  | .ldDTVx _ => ⟨0xF0FF, 0xF015⟩
  | .ldSTVx _ => ⟨0xF0FF, 0xF018⟩
  | .addI _ => ⟨0xF0FF, 0xF01E⟩
  | .ldF _ => ⟨0xF0FF, 0xF029⟩
  | .ldB _ => ⟨0xF0FF, 0xF033⟩
  | .storeBlock _ => ⟨0xF0FF, 0xF055⟩
  | .loadBlock _ => ⟨0xF0FF, 0xF065⟩
  | .unrec8 _ _ _ => ⟨0xF000, 0x8000⟩
  | .unrecE _ _ => ⟨0xF000, 0xE000⟩
  | .unrecF _ _ => ⟨0xF000, 0xF000⟩

/-- The 38 rows of spec/opcode_table.json, in its order. -/
def opcodeTable : List OpcodeRow :=
  [⟨0xFFFF, 0x00E0⟩, ⟨0xFFFF, 0x00EE⟩, ⟨0xF000, 0x0000⟩, ⟨0xF000, 0x1000⟩, ⟨0xF000, 0x2000⟩, ⟨0xF000, 0x3000⟩,
   ⟨0xF000, 0x4000⟩, ⟨0xF000, 0x5000⟩, ⟨0xF000, 0x6000⟩, ⟨0xF000, 0x7000⟩]
  ++ [⟨0xF00F, 0x8000⟩, ⟨0xF00F, 0x8001⟩, ⟨0xF00F, 0x8002⟩, ⟨0xF00F, 0x8003⟩, ⟨0xF00F, 0x8004⟩, ⟨0xF00F, 0x8005⟩,
   ⟨0xF00F, 0x8006⟩, ⟨0xF00F, 0x8007⟩, ⟨0xF00F, 0x800E⟩]
  ++ [⟨0xF000, 0x9000⟩, ⟨0xF000, 0xA000⟩, ⟨0xF000, 0xB000⟩, ⟨0xF000, 0xC000⟩, ⟨0xF000, 0xD000⟩, ⟨0xF0FF, 0xE09E⟩,
   ⟨0xF0FF, 0xE0A1⟩]
  ++ [⟨0xF0FF, 0xF007⟩, ⟨0xF0FF, 0xF00A⟩, ⟨0xF0FF, 0xF015⟩, ⟨0xF0FF, 0xF018⟩, ⟨0xF0FF, 0xF01E⟩, ⟨0xF0FF, 0xF029⟩,
   ⟨0xF0FF, 0xF033⟩, ⟨0xF0FF, 0xF055⟩, ⟨0xF0FF, 0xF065⟩]
  ++ [⟨0xF000, 0x8000⟩, ⟨0xF000, 0xE000⟩, ⟨0xF000, 0xF000⟩]

end Sys2Proof
end

