-- ==== Sys2Proof/Config.lean ====
section
/-! DEFINITION. The fixed sizes of the hardware (R8), the parameters a model takes as arguments (R8, R34 (c)), and
the one free value, the random byte (R34 (a), R180). -/

namespace Sys2Proof.Config

/-- `MEM_SIZE`, 4096 bytes (R8, R32). -/
abbrev memSize : Nat := 4096

/-- `PROGRAM_BASE`, where `Reset` puts the image (R8, R61). -/
abbrev programBase : Nat := 0x200

/-- The longest image `Reset` takes, 3584 bytes (R302). -/
abbrev maxImage : Nat := memSize - programBase

/-- The number of bytes of the font, 16 glyphs of 5 bytes at address 0 (R8, R46). -/
abbrev fontSize : Nat := 80

/-- `DISPLAY_W` (R8). -/
abbrev displayW : Nat := 64

/-- `DISPLAY_H` (R8). -/
abbrev displayH : Nat := 32

/-- FREE VALUE (log 2). The random byte of the `k`-th `RND`: any value, under no law, with no relation between two
draws (R34 (a), R180, D18). It has no body: nothing can be proved of a value of it. -/
opaque randomByte : Nat → Byte

/-- `STACK_DEPTH` and `DRAWQ_DEPTH`: a natural number each, or `none` for the source's unbounded depth (R8, R26,
R31, D6, D7). They are inputs of the step (R34 (c)), and the state carries them (log 3). -/
structure Limits where
  stackDepth : Option Nat
  drawqDepth : Option Nat
  deriving DecidableEq, Repr

/-- The default of both depths, infinity (R8). -/
def Limits.unbounded : Limits := { stackDepth := none, drawqDepth := none }

/-- What `Reset` takes as parameters: `FONT`, `RESET_PC`, `FORCE_1FF_ZERO` (R8, R46, R300 to R303). -/
structure Boot where
  font : Vector Byte fontSize
  resetPc : Word16
  force1FFZero : Bool
  deriving DecidableEq, Repr

/-- `RENDER_POLICY`: when renderer steps happen relative to instruction cycles; OPEN in the spec (R8, R227, D11). -/
inductive RenderPolicy where
  /-- A renderer step may occur between any two transactions, any number of times. -/
  | anyTime
  /-- The host drains the whole queue after every instruction cycle and before the next one. -/
  | afterEveryCycle
  deriving DecidableEq, Repr

end Sys2Proof.Config
end

