-- ==== Sys2Proof/Machine/State.lean ====
section
/-! DEFINITION. The state of the CORE (R20), field by field, its value after reset (R40), and the two reason types of
the host's interface. State is plain data. -/

namespace Sys2Proof.Machine

/-- Main memory (R32): the cells that differ from what an address holds right after `Reset` of the empty image, by
strictly rising address. `Memory.initialByte` says what an unlisted address reads as (log 13). -/
abbrev Memory := List Host.Cell

/-- The key-wait latch (R30). -/
inductive Latch where
  /-- Not waiting. -/
  | idle
  /-- Suspended, no candidate key yet. -/
  | waiting
  /-- The candidate key was pressed but not yet released. -/
  | pressed (k : Key)
  /-- The candidate key was released: the instruction completes on the next cycle. -/
  | released (k : Key)
  deriving DecidableEq, Repr

/-- A command of the draw queue (R31, R214): `ox` is 0 to 63, `oy` is 0 to 31, `rows` are 0 to 15 bytes, the top row
first. -/
inductive DrawCommand where
  /-- Reset the entire display. -/
  | clear
  /-- XOR-blit a sprite at an origin. -/
  | draw (ox : Fin 64) (oy : Fin 32) (rows : List Byte)
  deriving DecidableEq, Repr

/-- The causes of a fatal fault, in the order of their codes 1 to 5 (R33, R278). A fatal fault is taken as the spec
describes it, as a next state whose field `fault` holds the cause (R12, R270; log 1), so no step answers the host's
`fault` outcome. -/
inductive Fault where
  /-- Raised by the fetch of any cycle when `pc + 1 > 4095` (R271). Safe: the run stops there. -/
  | fetchOutOfBounds
  /-- Raised by `RET` on an empty stack (R272). Safe: the run stops there. -/
  | returnEmptyStack
  /-- Raised by `DRW`, `LD B, Vx`, `LD [I], Vx`, `LD Vx, [I]` when a byte lies beyond 0xFFF (R273, D4). Safe: a core
  that went on would do something the model claims nothing of. -/
  | dataOutOfBounds
  /-- Raised by `CALL` when the stack holds `STACK_DEPTH` entries (R274, D6). Safe: only with a finite depth. -/
  | stackOverflow
  /-- Raised by `CLS` and `DRW` when the queue holds `DRAWQ_DEPTH` commands (R275, D7). Safe: only with a finite
  depth. -/
  | drawQueueOverflow
  deriving DecidableEq, Repr

/-- Why an instruction would have no meaning. -/
inductive Refusal where
  /-- Raised by an arm of `exec` whose instruction is not modelled. No arm raises it: all 38 rows have a meaning.
  Safe. -/
  | notModelled (mnemonic : String)
  deriving DecidableEq, Repr

/-- The state of the CORE: the eleven fields of R20, and the model's own `limits` and `draws`. -/
structure State where
  /-- Main memory, 4096 bytes (R32). -/
  mem : Memory
  /-- The sixteen general registers; `V[0xF]` is also the flag (R21, R22). -/
  V : Vector Byte 16
  /-- The program counter (R23). -/
  pc : Word16
  /-- The index register (R25). -/
  I : Word16
  /-- The return addresses, the top first (R26; log 12). -/
  stack : List Word16
  /-- The delay timer `DT` (R27). -/
  dt : Byte
  /-- The sound timer `ST` (R28). -/
  st : Byte
  /-- Whether each key is down, as far as the CORE was told (R29). -/
  keys : Vector Bool 16
  /-- The key-wait latch (R30). -/
  latch : Latch
  /-- The draw queue, the front first (R31, R216). -/
  dq : List DrawCommand
  /-- `none` while the CORE runs, the cause after a fatal fault (R33). -/
  fault : Option Fault
  /-- The model's own: the parameters `STACK_DEPTH` and `DRAWQ_DEPTH`, inputs of the step (R8, R34 (c); log 3). -/
  limits : Config.Limits
  /-- The model's own: how many random bytes `RND` has consumed (R34 (a); log 2). -/
  draws : Nat
  deriving DecidableEq, Repr

/-- The CORE right after `Reset` of the empty image with the default parameters (R40, R300, R301): memory as reset
leaves it, `pc` at 0x200, everything else zero or empty. -/
def State.reset : State :=
  { mem := []
    V := Vector.replicate 16 0
    pc := 0x200
    I := 0
    stack := []
    dt := 0
    st := 0
    keys := Vector.replicate 16 false
    latch := .idle
    dq := []
    fault := none
    limits := Config.Limits.unbounded
    draws := 0 }

/-- What an instruction or a step answers. -/
abbrev Result := Host.Outcome State Fault Refusal

end Sys2Proof.Machine
end

