-- ==== Sys2Proof/Machine/Operands.lean ====
section
/-! DEFINITION. The operand forms: registers, register blocks, immediates and addresses, key numbers, sprite origins,
glyph addresses, BCD digits (R10, R93, R188). -/

namespace Sys2Proof.Machine

/-- `V[x]` (R10). -/
def State.getV (s : State) (x : RegId) : Byte := s.V[x]

/-- `V[x] <- v` (R10). No register is hardwired (R21). -/
def State.setV (s : State) (x : RegId) (v : Byte) : State := { s with V := s.V.set x v }

/-- `mem[a]` (R11). -/
def State.readByte (s : State) (a : Nat) : Byte := Memory.read s.mem a

/-- `zext_16(nnn)`: a 12-bit address as a value of `pc` or `I` (R93). -/
def zext16Addr (nnn : Addr12) : Word16 := nnn.setWidth 16

/-- `zext_16(v)`: a register as a 16-bit value (R93). -/
def zext16Byte (v : Byte) : Word16 := v.setWidth 16

/-- The target of `JP V0, nnn`: `nnn + V[0]`, always `V[0]`, not reduced to 12 bits (R152, D32; log 11). -/
def indexedTarget (s : State) (nnn : Addr12) : Word16 := zext16Addr nnn + zext16Byte (s.getV 0)

/-- The key a register names: its low 4 bits (R240, R242). -/
def keyOf (v : Byte) : Key := (v.extractLsb' 0 4).toFin

/-- `keys[k]` (R29). -/
def State.keyDown (s : State) (k : Key) : Bool := s.keys[k]

/-- A key index as a register value, `zext_8(k)` (R246). -/
def keyByte (k : Key) : Byte := BitVec.ofNat 8 k.val

/-- The column of a sprite's origin, `V[x] mod 64` (R212). -/
def originX (v : Byte) : Fin 64 := Fin.ofNat 64 v.toNat

/-- The row of a sprite's origin, `V[y] mod 32` (R212). -/
def originY (v : Byte) : Fin 32 := Fin.ofNat 32 v.toNat

/-- The address of a glyph, `5 * V[x]`, of all 8 bits of the register (R194, D26; log 10). -/
def glyphAddress (v : Byte) : Word16 := BitVec.ofNat 16 (5 * v.toNat)

/-- The three decimal digits of a byte, the hundreds first (R196). -/
def bcdDigits (v : Byte) : List Byte :=
  [BitVec.ofNat 8 (v.toNat / 100), BitVec.ofNat 8 (v.toNat / 10 % 10), BitVec.ofNat 8 (v.toNat % 10)]

/-- How many registers the block `V[0]` to `V[x]` has (R93). -/
def blockCount (x : RegId) : Nat := x.val + 1

/-- The values of the block, `V[0], V[1], ..., V[x]` (R198). -/
def State.getBlock (s : State) (x : RegId) : List Byte := s.V.toList.take (blockCount x)

/-- `V[i] <- b[i]` for every byte of the list; the registers above are unchanged (R200). -/
def State.setBlock (s : State) (b : List Byte) : State := { s with V := Vector.ofFn fun i => b.getD i s.V[i] }

end Sys2Proof.Machine
end

