-- ==== Sys2Proof/Machine/Flags.lean ====
section
/-! DEFINITION. The flag computations of `V[0xF]` (R22, R166 to R178) and the write of a result with its flag
(R157). -/

namespace Sys2Proof.Machine

/-- A flag as a register value, 1 or 0. -/
def flagByte (b : Bool) : Byte := if b then 1 else 0

/-- The carry out of bit 7 of `vx + vy` (R170). -/
def carryFlag (vx vy : Byte) : Byte := flagByte (decide (vx.toNat + vy.toNat > 255))

/-- 1 when `a - b` needs no borrow, that is `a >= b` (R172, R176). -/
def notBorrowFlag (a b : Byte) : Byte := flagByte (decide (a.toNat ≥ b.toNat))

/-- Bit 0 of the value before a shift to the right (R174). -/
def shiftedOutLow (v : Byte) : Byte := flagByte (v.getLsbD 0)

/-- Bit 7 of the value before a shift to the left (R178). -/
def shiftedOutHigh (v : Byte) : Byte := flagByte (v.getLsbD 7)

/-- The flag of `OR`, `AND`, `XOR`: always 0 (R166 to R168). -/
def resetFlag : Byte := 0

/-- Write a result to `V[x]`, then a flag to `V[0xF]`; with `x = 0xF` the flag remains (R157, D8; log 9). -/
def State.setWithFlag (s : State) (x : RegId) (result flag : Byte) : State := (s.setV x result).setV VF flag

end Sys2Proof.Machine
end

