-- ==== Sys2Proof/Machine/Ops.lean ====
section
/-! DEFINITION. The shared operations: the advance of `pc`, skips, the fetch, data accesses with their bounds, the
stack, the draw queue, and taking a fatal fault (R10, R11, R12). -/

namespace Sys2Proof.Machine

/-! ### Taking an exception -/

/-- `raise Fatal(c)`, the hardware's only exception: the cause goes to `fault`, every other field is as it was before
the cycle, `pc` at the faulting instruction included; there is no handler to go to (R12, R270, R283, D16; log 1). `s`
is the state before the cycle. A CORE so halted has no return but `Reset` (R276, R284). -/
def raiseFatal (c : Fault) (s : State) : Result := .next { s with fault := some c }

/-- The end of an instruction that may fault: the new state, or the fault `c` raised in the state `s` before the
cycle, so that nothing the cycle did is kept (R270). -/
def orFatal (s : State) (c : Fault) : Option State → Result
  | some t => .next t
  | none => raiseFatal c s

/-! ### The program counter -/

/-- `pc <- pc + 2`, before an instruction's own effect (R120 (b), R122). -/
def State.advance (s : State) : State := { s with pc := s.pc + 2 }

/-- `pc <- target` (R12). -/
def State.jumpTo (s : State) (target : Word16) : State := { s with pc := target }

/-- `if cond: pc <- pc + 2` (R148). -/
def State.skipIf (s : State) (cond : Bool) : State := if cond then { s with pc := s.pc + 2 } else s

/-- `pc <- pc - 2`: the instruction is executed again by the next cycle (R246, D24; log 24). -/
def State.rollBack (s : State) : State := { s with pc := s.pc - 2 }

/-! ### Memory -/

/-- `Fetch16(a)`: the two bytes at `a` and `a + 1`, big-endian, or nothing when `a + 1 > 4095`. `a` is the full 16-bit
`pc` (R63, R121). -/
def fetch16 (s : State) : Option Word16 :=
  if s.pc.toNat + 1 > 4095 then none
  else some (wordOfBytes (s.readByte s.pc.toNat) (s.readByte (s.pc.toNat + 1)))

/-- Whether `count` bytes from `addr` on all lie in memory; no byte always does. The sum is not wrapped (R11, R67,
D4; log 8). -/
def inBounds (addr count : Nat) : Bool := decide (count = 0) || decide (addr + count - 1 ≤ 4095)

/-- `MemRead(addr, n)`, or nothing when it is out of bounds (R11). -/
def memRead (s : State) (addr n : Nat) : Option (List Byte) :=
  if inBounds addr n then some (Memory.readBytes s.mem addr n) else none

/-- `MemWrite(addr, n, bytes)`, or nothing when it is out of bounds, no byte written then (R11). -/
def memWrite (s : State) (addr : Nat) (bytes : List Byte) : Option State :=
  if inBounds addr bytes.length then some { s with mem := Memory.writeBytes s.mem addr bytes } else none

/-- Move `I` past a block of registers: `I <- I + x + 1` (R198, R200). -/
def State.advanceI (s : State) (x : RegId) : State := { s with I := s.I + BitVec.ofNat 16 (blockCount x) }

/-! ### The stack and the draw queue -/

/-- A sequence of `len` elements of a structure with the given depth has room for one more; an unbounded one always
has (R26, R31). -/
def hasRoom (depth : Option Nat) (len : Nat) : Bool := decide (depth ≠ some len)

/-- `push(stack, v)`, or nothing when `len(stack) = STACK_DEPTH` (R10, R26, R146, D6). -/
def pushStack (s : State) (v : Word16) : Option State :=
  if hasRoom s.limits.stackDepth s.stack.length then some { s with stack := v :: s.stack } else none

/-- `pc <- pop(stack)`, or nothing when the stack is empty (R10, R140). -/
def popToPc (s : State) : Option State :=
  match s.stack with
  | [] => none
  | v :: rest => some { s with pc := v, stack := rest }

/-- `enqueue(dq, c)`, or nothing when `len(dq) = DRAWQ_DEPTH` (R10, R31, R210, D7). -/
def enqueue (s : State) (c : DrawCommand) : Option State :=
  if hasRoom s.limits.drawqDepth s.dq.length then some { s with dq := s.dq ++ [c] } else none

end Sys2Proof.Machine
end

