-- ==== Sys2Proof/Machine/Alu.lean ====
section
/-! DEFINITION. Register arithmetic and logic (spec/42_alu.md): unsigned 8-bit values that wrap (R156), operands read
before anything is written (R157). -/

namespace Sys2Proof.Machine

/-- `LD Vx, kk` (R160). -/
def execLdImm (x : RegId) (kk : Byte) (s : State) : Result := .next (s.advance.setV x kk)

/-- `ADD Vx, kk`: wraps, no flag (R162). -/
def execAddImm (x : RegId) (kk : Byte) (s : State) : Result := .next (s.advance.setV x (s.getV x + kk))

/-- `LD Vx, Vy` (R164). -/
def execLdReg (x y : RegId) (s : State) : Result := .next (s.advance.setV x (s.getV y))

/-- `OR Vx, Vy`, flag reset (R166). -/
def execOrReg (x y : RegId) (s : State) : Result :=
  .next (s.advance.setWithFlag x (s.getV x ||| s.getV y) resetFlag)

/-- `AND Vx, Vy`, flag reset (R167). -/
def execAndReg (x y : RegId) (s : State) : Result :=
  .next (s.advance.setWithFlag x (s.getV x &&& s.getV y) resetFlag)

/-- `XOR Vx, Vy`, flag reset (R168). -/
def execXorReg (x y : RegId) (s : State) : Result :=
  .next (s.advance.setWithFlag x (s.getV x ^^^ s.getV y) resetFlag)

/-- `ADD Vx, Vy`, flag = carry (R170). -/
def execAddReg (x y : RegId) (s : State) : Result :=
  .next (s.advance.setWithFlag x (s.getV x + s.getV y) (carryFlag (s.getV x) (s.getV y)))

/-- `SUB Vx, Vy`, flag = not-borrow (R172). -/
def execSubReg (x y : RegId) (s : State) : Result :=
  .next (s.advance.setWithFlag x (s.getV x - s.getV y) (notBorrowFlag (s.getV x) (s.getV y)))

/-- `SHR Vx, Vy`: the source is `Vy`; flag = its bit 0 (R174). -/
def execShrReg (x y : RegId) (s : State) : Result :=
  .next (s.advance.setWithFlag x (s.getV y >>> 1) (shiftedOutLow (s.getV y)))

/-- `SUBN Vx, Vy`: `Vy - Vx` into `Vx`, flag = not-borrow (R176). -/
def execSubnReg (x y : RegId) (s : State) : Result :=
  .next (s.advance.setWithFlag x (s.getV y - s.getV x) (notBorrowFlag (s.getV y) (s.getV x)))

/-- `SHL Vx, Vy`: the source is `Vy`; flag = its bit 7 (R178). -/
def execShlReg (x y : RegId) (s : State) : Result :=
  .next (s.advance.setWithFlag x (s.getV y <<< 1) (shiftedOutHigh (s.getV y)))

/-- `RND Vx, kk` with the draw `rand` (R180). -/
def rndWith (rand : Byte) (x : RegId) (kk : Byte) (s : State) : State := s.advance.setV x (rand &&& kk)

/-- `RND Vx, kk`: the draw is the next free value (R34 (a), R180, D18; log 2). -/
def execRnd (x : RegId) (kk : Byte) (s : State) : Result :=
  .next { rndWith (Config.randomByte s.draws) x kk s with draws := s.draws + 1 }

end Sys2Proof.Machine
end

