-- ==== Sys2Proof/Machine/Control.lean ====
section
/-! DEFINITION. Control transfer: return, jumps, call, register skips (spec/41_control.md). -/

namespace Sys2Proof.Machine

/-- `RET`: pop the top of the stack into `pc`; fatal when the stack is empty (R140). -/
def execRet (s : State) : Result := orFatal s .returnEmptyStack (popToPc s.advance)

/-- `JP nnn` (R142). -/
def execJp (nnn : Addr12) (s : State) : Result := .next (s.advance.jumpTo (zext16Addr nnn))

/-- `CALL nnn`: push `a + 2` and jump; fatal when the stack is full (R146). -/
def execCall (nnn : Addr12) (s : State) : Result :=
  orFatal s .stackOverflow ((pushStack s.advance s.advance.pc).map fun t => t.jumpTo (zext16Addr nnn))

/-- `SE Vx, kk` (R148). -/
def execSeImm (x : RegId) (kk : Byte) (s : State) : Result := .next (s.advance.skipIf (s.getV x == kk))

/-- `SNE Vx, kk` (R149). -/
def execSneImm (x : RegId) (kk : Byte) (s : State) : Result := .next (s.advance.skipIf (s.getV x != kk))

/-- `SE Vx, Vy` (R150). -/
def execSeReg (x y : RegId) (s : State) : Result := .next (s.advance.skipIf (s.getV x == s.getV y))

/-- `SNE Vx, Vy` (R151). -/
def execSneReg (x y : RegId) (s : State) : Result := .next (s.advance.skipIf (s.getV x != s.getV y))

/-- `JP V0, nnn` (R152). -/
def execJpV0 (nnn : Addr12) (s : State) : Result := .next (s.advance.jumpTo (indexedTarget s nnn))

end Sys2Proof.Machine
end

