-- ==== Sys2Proof/Machine/Display.lean ====
section
/-! DEFINITION. The display instructions, which append commands to the draw queue (spec/44_display.md, section 1). -/

namespace Sys2Proof.Machine

/-- `CLS` (R210). -/
def execCls (s : State) : Result := orFatal s .drawQueueOverflow (enqueue s.advance .clear)

/-- `DRW Vx, Vy, n`: the rows are copied now, the flag is not written; memory bounds before the queue's room (R129,
R212). -/
def execDrw (x y : RegId) (n : Nibble) (s : State) : Result :=
  match memRead s s.I.toNat n.toNat with
  | none => raiseFatal .dataOutOfBounds s
  | some rows =>
    orFatal s .drawQueueOverflow (enqueue s.advance (.draw (originX (s.getV x)) (originY (s.getV y)) rows))

end Sys2Proof.Machine
end

