-- ==== Sys2Proof/Machine/Index.lean ====
section
/-! DEFINITION. The index register and the memory instructions (spec/43_index_memory.md). -/

namespace Sys2Proof.Machine

/-- `LD I, nnn` (R190). -/
def execLdI (nnn : Addr12) (s : State) : Result := .next { s.advance with I := zext16Addr nnn }

/-- `ADD I, Vx`: wraps at 16 bits, no flag (R192, D5; log 11). -/
def execAddI (x : RegId) (s : State) : Result := .next { s.advance with I := s.I + zext16Byte (s.getV x) }

/-- `LD F, Vx` (R194). -/
def execLdF (x : RegId) (s : State) : Result := .next { s.advance with I := glyphAddress (s.getV x) }

/-- `LD B, Vx`: three digits at `I`, `I` unchanged (R196). -/
def execLdB (x : RegId) (s : State) : Result :=
  orFatal s .dataOutOfBounds (memWrite s.advance s.I.toNat (bcdDigits (s.getV x)))

/-- `LD [I], Vx`: `V[0]` to `V[x]` at `I`, then `I <- I + x + 1` (R198). -/
def execStoreBlock (x : RegId) (s : State) : Result :=
  orFatal s .dataOutOfBounds ((memWrite s.advance s.I.toNat (s.getBlock x)).map fun t => t.advanceI x)

/-- `LD Vx, [I]`: `V[0]` to `V[x]` from `I`, then `I <- I + x + 1` (R200). -/
def execLoadBlock (x : RegId) (s : State) : Result :=
  orFatal s .dataOutOfBounds ((memRead s s.I.toNat (blockCount x)).map fun b => (s.advance.setBlock b).advanceI x)

end Sys2Proof.Machine
end

