-- ==== Sys2Proof/Machine/Keys.lean ====
section
/-! DEFINITION. Key skips, the key-wait and the timer instructions (spec/45_keys_timers.md, sections 1 to 3). -/

namespace Sys2Proof.Machine

/-- `SKP Vx` (R240). -/
def execSkp (x : RegId) (s : State) : Result := .next (s.advance.skipIf (s.keyDown (keyOf (s.getV x))))

/-- `SKNP Vx` (R242). -/
def execSknp (x : RegId) (s : State) : Result := .next (s.advance.skipIf (!s.keyDown (keyOf (s.getV x))))

/-- `LD Vx, K`: enter the wait, stall, or complete, by the latch; it does not read `keys` (R246). -/
def execLdVxK (x : RegId) (s : State) : Result :=
  match s.latch with
  | .idle => .next { s.advance with latch := .waiting }.rollBack
  | .waiting => .next s.advance.rollBack
  | .pressed _ => .next s.advance.rollBack
  | .released k => .next { s.advance.setV x (keyByte k) with latch := .idle }

/-- `LD Vx, DT` (R250). -/
def execLdVxDT (x : RegId) (s : State) : Result := .next (s.advance.setV x s.dt)

/-- `LD DT, Vx` (R252). -/
def execLdDTVx (x : RegId) (s : State) : Result := .next { s.advance with dt := s.getV x }

/-- `LD ST, Vx` (R254). -/
def execLdSTVx (x : RegId) (s : State) : Result := .next { s.advance with st := s.getV x }

end Sys2Proof.Machine
end

