-- ==== Sys2Proof/Machine/Unrecognised.lean ====
section
/-! DEFINITION. `SYS nnn` and the words whose secondary selector no row names: nothing changes but `pc` (R126). The
diagnostic they emit is `Machine.diagnostic` (Machine/Cycle.lean); it is no state (R277).

In every meaning of this folder `s` is the state before the cycle, so `s.pc` is the address `a` of the instruction,
and `s.advance` has `pc = a + 2`, from where the spec's pseudocode starts (R122; log 21). -/

namespace Sys2Proof.Machine

/-- `SYS nnn` (R126). -/
def execSys (s : State) : Result := .next s.advance

/-- `8xyn`, unrecognised (R97 (b), R126). -/
def execUnrec8 (s : State) : Result := .next s.advance

/-- `Exkk`, unrecognised (R97 (c), R126). -/
def execUnrecE (s : State) : Result := .next s.advance

/-- `Fxkk`, unrecognised (R97 (d), R126). -/
def execUnrecF (s : State) : Result := .next s.advance

end Sys2Proof.Machine
end

