-- ==== Sys2Proof/Machine/Cycle.lean ====
section
/-! DEFINITION. The transaction `InstrCycle` and the diagnostic it may emit (spec/40_cycle.md, R277), and where a word
is put for the fetch to find it. -/

namespace Sys2Proof.Machine

/-- `InstrCycle`: nothing on a halted CORE; else fetch, advance, decode, execute (R120 to R125, R129). The advance is
in the meanings (log 21); the random draw is the free value of log 2. -/
def instrCycle (s : State) : Result :=
  match s.fault with
  | some _ => .next s
  | none =>
    match fetch16 s with
    | none => raiseFatal .fetchOutOfBounds s
    | some w => exec (decode w) s

/-- The event `Diag(a, w)` (R277). -/
structure Diag where
  addr : Word16
  word : Word16
  deriving DecidableEq, Repr

/-- The diagnostic that the `InstrCycle` started in `s` emits, if it emits one (R126, R277, D17; log 18). -/
def diagnostic (s : State) : Option Diag :=
  match s.fault with
  | some _ => none
  | none =>
    match fetch16 s with
    | none => none
    | some w => if (decode w).unrecognised then some ⟨s.pc, w⟩ else none

/-- Put a word at `pc`, big-endian, if both its bytes lie in memory (R63, R121). -/
def placeWord (s : State) (w : Word16) : State :=
  if s.pc.toNat + 1 > 4095 then s
  else { s with mem := Memory.writeBytes s.mem s.pc.toNat [highByte w, lowByte w] }

/-- The word at `pc` is a jump to `pc`: the spec's convention for the end of a run (R312, D28). -/
def atSelfJump (s : State) : Bool :=
  match fetch16 s with
  | none => false
  | some w => decide (fieldOp w = 0x1) && decide (zext16Addr (fieldNNN w) = s.pc)

end Sys2Proof.Machine
end

