-- ==== Sys2Proof/Machine/Step.lean ====
section
/-! DEFINITION. The step of the machine: one `InstrCycle` (R5, R6, R120). The host's other transactions fall between
steps (Machine/Transactions.lean; log 14). -/

namespace Sys2Proof.Machine

/-- One step: one `InstrCycle`. -/
def step (s : State) : Host.Outcome State Fault Refusal := instrCycle s

/-- `s` with the table's `nbits` bits `w` stored where the next step fetches, and the CORE not halted, since a halted
one fetches nothing (R121, R125; log 17). -/
def State.withFetchWord (s : State) (nbits w : Nat) : State :=
  { placeWord s (BitVec.ofNat 16 (w % 2 ^ nbits)) with fault := none }

end Sys2Proof.Machine
end

