-- ==== Sys2Proof/Machine/Transactions.lean ====
section
/-! DEFINITION. The transactions of the CORE besides `InstrCycle` (R6): `Reset` (spec/70_reset_and_hazards.md),
`KeyEvent`, `TimerTick`, `SoundTimer`, `Waiting` (spec/45_keys_timers.md, section 4), `DrawPoll`, `SetCollision`
(spec/44_display.md, section 2). Each is atomic and falls between instruction cycles (R5, R282; log 14); all but
`InstrCycle` go on working on a halted CORE (R276). -/

namespace Sys2Proof.Machine

/-! ### Reset (R300 to R304) -/

/-- The default parameters of `Reset` (R8, R46; logs 4, 5, 20). -/
def defaultBoot : Config.Boot := { font := defaultFont, resetPc := 0x200, force1FFZero := true }

/-- Memory after `Reset(image)`: zeros, the font at 0, the image at 0x200, then 0x1FF forced to 0 (R40, R300). -/
def loadMemory (b : Config.Boot) (image : List Byte) : Memory :=
  let m := Memory.writeBytes (Memory.writeBytes [] 0 b.font.toList) Config.programBase image
  if b.force1FFZero then Memory.write m 0x1FF 0 else m

/-- `Reset(image)`, or nothing for an image longer than 3584 bytes, with which it is no transaction (R300, R302). The
parameters of the step stay as they are, and so does the count of random draws, so that a new run has new draws
(log 19). -/
def State.load (b : Config.Boot) (image : List Byte) (s : State) : Option State :=
  if image.length > Config.maxImage then none
  else some { State.reset with mem := loadMemory b image, pc := b.resetPc, limits := s.limits, draws := s.draws }

/-! ### Keyboard (R258, R259, R266) -/

/-- The latch's reaction to a key event: the table of R259 (D33; log 15). -/
def latchNext : Latch → Key → Bool → Latch
  | .idle, _, _ => .idle
  | .waiting, j, true => .pressed j
  | .waiting, _, false => .waiting
  | .pressed k, _, true => .pressed k
  | .pressed k, j, false => if j = k then .released k else .pressed k
  | .released k, _, _ => .released k

/-- `KeyEvent(k, pressed)` (R258). -/
def keyEvent (k : Key) (pressed : Bool) (s : State) : State :=
  { s with keys := s.keys.set k pressed, latch := latchNext s.latch k pressed }

/-- `Waiting`: the latch is not `Idle` (R266, D15; log 15). -/
def waiting (s : State) : Bool := decide (s.latch ≠ .idle)

/-! ### Timers (R262, R265) -/

/-- A timer's decrement: 0 stays 0 (R262). -/
def decrement (v : Byte) : Byte := if v = 0 then 0 else v - 1

/-- `TimerTick` (R262). -/
def timerTick (s : State) : State := { s with dt := decrement s.dt, st := decrement s.st }

/-- `SoundTimer`: the value of `ST` (R265). -/
def soundTimer (s : State) : Byte := s.st

/-- The 1-bit tone output, `ST != 0` (R265). -/
def tone (s : State) : Bool := decide (s.st ≠ 0)

/-! ### The draw queue and the flag (R218, R220) -/

/-- `DrawPoll`: the front command, if there is one, and the state without it (R218). -/
def drawPoll (s : State) : Option DrawCommand × State :=
  match s.dq with
  | [] => (none, s)
  | c :: rest => (some c, { s with dq := rest })

/-- `SetCollision(b)` (R220, D31). -/
def setCollision (b : Bool) (s : State) : State := s.setV VF (flagByte b)

/-- `n` polls one after another: the commands they returned, in order, and the state after them (R216, R218). -/
def pollTimes : Nat → State → List DrawCommand × State
  | 0, s => ([], s)
  | n + 1, s =>
    match drawPoll s with
    | (none, s') => pollTimes n s'
    | (some c, s') => (c :: (pollTimes n s').1, (pollTimes n s').2)

/-! ### All transactions (R6) -/

/-- What the host may ask of the CORE (R6). The random draw of `InstrCycle` is the free value of log 2. -/
inductive Transaction where
  | reset (b : Config.Boot) (image : List Byte)
  | instrCycle
  | timerTick
  | keyEvent (k : Key) (pressed : Bool)
  | drawPoll
  | setCollision (b : Bool)
  | soundTimer
  | waiting
  deriving DecidableEq, Repr

/-- What a transaction answers (R6, column "result"). -/
inductive Reply where
  | nothing
  | diagnostic (d : Option Diag)
  | command (c : Option DrawCommand)
  | soundTimer (v : Byte)
  | waiting (b : Bool)
  deriving DecidableEq, Repr

/-- One transaction: the state after it and its reply, or nothing where it is no transaction of the model (R302). -/
def transact : Transaction → State → Option (State × Reply)
  | .reset b image, s => (State.load b image s).map fun t => (t, .nothing)
  | .instrCycle, s =>
    match instrCycle s with
    | .next t => some (t, .diagnostic (diagnostic s))
    | .fault _ => none
    | .refused _ => none
  | .timerTick, s => some (timerTick s, .nothing)
  | .keyEvent k pressed, s => some (keyEvent k pressed s, .nothing)
  | .drawPoll, s => some ((drawPoll s).2, .command (drawPoll s).1)
  | .setCollision b, s => some (setCollision b s, .nothing)
  | .soundTimer, s => some (s, .soundTimer (soundTimer s))
  | .waiting, s => some (s, .waiting (waiting s))

/-- A schedule of the host: transactions in a total order, in any order and number (R5, R7). -/
def runTransactions : List Transaction → State → Option State
  | [], s => some s
  | t :: ts, s =>
    match transact t s with
    | none => none
    | some (s', _) => runTransactions ts s'

end Sys2Proof.Machine
end

