-- ==== Sys2Proof/Machine/Renderer.lean ====
section
/-! DEFINITION. The renderer, the environment agent whose contract the spec gives (R222 to R227), beside the CORE. The
display is no state of the CORE (R4, R34 (b)); `System` holds the two together (log 16). -/

namespace Sys2Proof.Machine

/-- `disp`, 32 rows of 64 pixels (R222). -/
abbrev Display := Vector (Vector Bool 64) 32

/-- Every pixel 0: the display's initial content and the effect of `Clear` (R222, R223, D14). -/
def Display.blank : Display := Vector.replicate 32 (Vector.replicate 64 false)

/-- `disp[py][px]` (R222). -/
def Display.pixel (d : Display) (px : Fin 64) (py : Fin 32) : Bool := d[py][px]

/-- XOR 1 onto a pixel (R224). -/
def Display.flip (d : Display) (px : Fin 64) (py : Fin 32) : Display := d.set py (d[py].set px (!d[py][px]))

/-- The pixels of one sprite row that are XORed: bit 7 is column 0; what falls outside the frame is clipped
(R224, R225, D13). -/
def rowPixels (ox : Fin 64) (py : Nat) (row : Byte) : List (Fin 64 × Fin 32) :=
  (List.range 8).filterMap fun c =>
    if row.getLsbD (7 - c) then
      if h : ox.val + c < 64 ∧ py < 32 then some (⟨ox.val + c, h.1⟩, ⟨py, h.2⟩) else none
    else none

/-- The pixels of a sprite that are XORed, row 0 first, left to right (R224). -/
def spritePixels (ox : Fin 64) (oy : Fin 32) (rows : List Byte) : List (Fin 64 × Fin 32) :=
  rows.zipIdx.flatMap fun r => rowPixels ox (oy.val + r.2) r.1

/-- XOR one pixel and note a collision if it was set before (R224). -/
def plot (acc : Display × Bool) (p : Fin 64 × Fin 32) : Display × Bool :=
  (acc.1.flip p.1 p.2, acc.2 || acc.1.pixel p.1 p.2)

/-- `Draw(ox, oy, rows)` on a display: the display after it and the collision (R224). -/
def blit (d : Display) (ox : Fin 64) (oy : Fin 32) (rows : List Byte) : Display × Bool :=
  (spritePixels ox oy rows).foldl plot (d, false)

/-- The CORE and the display its renderer owns. -/
structure System where
  core : State
  disp : Display
  deriving DecidableEq, Repr

/-- The system right after reset: the CORE's reset state and a blank display (R40, R222, D14; log 16). -/
def System.reset : System := { core := State.reset, disp := Display.blank }

/-- `Reset(image)` of the system: the CORE's `Reset`, and the renderer starts with every pixel 0, whatever the display
held; nothing where `Reset` does not take the image (R222, R300, R302, D14; log 16). -/
def System.load (b : Config.Boot) (image : List Byte) (y : System) : Option System :=
  (State.load b image y.core).map fun t => { core := t, disp := Display.blank }

/-- The renderer performs a command: `Clear` issues no `SetCollision`, a `Draw` always does (R223, R224, D12). -/
def perform (c : DrawCommand) (y : System) : System :=
  match c with
  | .clear => { y with disp := Display.blank }
  | .draw ox oy rows =>
    { core := setCollision (blit y.disp ox oy rows).2 y.core, disp := (blit y.disp ox oy rows).1 }

/-- One renderer step: one `DrawPoll`, and the command it returned performed, as one atomic step (R226). -/
def rendererStep (y : System) : System :=
  match drawPoll y.core with
  | (none, _) => y
  | (some c, core) => perform c { y with core := core }

/-- Renderer steps, `n` of them. -/
def rendererSteps : Nat → System → System
  | 0, y => y
  | n + 1, y => rendererSteps n (rendererStep y)

/-- The renderer drains the whole queue: one step for each command in it (R226). -/
def drain (y : System) : System := rendererSteps y.core.dq.length y

/-- One `InstrCycle` under a `RENDER_POLICY`: with `after_every_cycle` the host then drains the queue; with `any_time`
renderer steps are actions of their own (R227, D11). -/
def systemCycle (policy : Config.RenderPolicy) (y : System) : Option System :=
  match instrCycle y.core with
  | .next t =>
    match policy with
    | .anyTime => some { y with core := t }
    | .afterEveryCycle => some (drain { y with core := t })
  | .fault _ => none
  | .refused _ => none

/-- What may happen to the system between two moments: the environment reaches the queue and the flag by renderer
steps only (R7, R226, D31), and `Reset` starts CORE and display anew (R222, R300). -/
inductive Action where
  | reset (b : Config.Boot) (image : List Byte)
  | cycle
  | tick
  | key (k : Key) (pressed : Bool)
  | render
  deriving DecidableEq, Repr

/-- One action under a policy. -/
def act (policy : Config.RenderPolicy) : Action → System → Option System
  | .reset b image, y => System.load b image y
  | .cycle, y => systemCycle policy y
  | .tick, y => some { y with core := timerTick y.core }
  | .key k pressed, y => some { y with core := keyEvent k pressed y.core }
  | .render, y => some (rendererStep y)

/-- A schedule of actions (R7, R227). -/
def runActions (policy : Config.RenderPolicy) : List Action → System → Option System
  | [], y => some y
  | a :: as, y =>
    match act policy a y with
    | none => none
    | some y' => runActions policy as y'

end Sys2Proof.Machine
end

