-- ==== Sys2Proof/Safety.lean ====
section
/-! DEFINITION. What claims are stated with: a failed run, the end of a run, the frame of an instruction, and the
invariant of the machine. -/

namespace Sys2Proof.Machine

/-! ### Runs -/

/-- The CORE is halted by a fatal fault: a failed run (R276, D16). -/
def State.failed (s : State) : Bool := s.fault.isSome

/-- `n` instruction cycles with no other transaction between them. -/
def runCycles : Nat → State → Result
  | 0, s => .next s
  | n + 1, s =>
    match step s with
    | .next t => runCycles n t
    | .fault r => .fault r
    | .refused r => .refused r

/-- After `n` cycles the program has ended, by the spec's convention, in a state with `P`. A failed run never counts
as one (R276, R312). -/
def endsWith (P : State → Prop) (n : Nat) (s : State) : Prop :=
  ∃ t, runCycles n s = .next t ∧ t.failed = false ∧ atSelfJump t = true ∧ P t

/-! ### Frames -/

/-- What an instruction may change, besides `pc`. -/
structure Footprint where
  /-- Registers it may write. -/
  regs : List RegId := []
  /-- Addresses it may store to. -/
  bytes : List Nat := []
  index : Bool := false
  stack : Bool := false
  dt : Bool := false
  st : Bool := false
  latch : Bool := false
  dq : Bool := false
  draws : Bool := false

/-- `t` differs from `s` at most in `pc` and in what the footprint names. `keys` and the parameters no instruction
changes; `fault` is the same, so this says nothing is raised. -/
structure Frame (f : Footprint) (s t : State) : Prop where
  regs : ∀ r, r ∉ f.regs → t.getV r = s.getV r
  bytes : ∀ a, a ∉ f.bytes → t.readByte a = s.readByte a
  mem : f.bytes = [] → t.mem = s.mem
  index : f.index = false → t.I = s.I
  stack : f.stack = false → t.stack = s.stack
  dt : f.dt = false → t.dt = s.dt
  st : f.st = false → t.st = s.st
  latch : f.latch = false → t.latch = s.latch
  dq : f.dq = false → t.dq = s.dq
  draws : f.draws = false → t.draws = s.draws
  keys : t.keys = s.keys
  limits : t.limits = s.limits
  fault : t.fault = s.fault

/-- The registers `V[0]` to `V[x]`. -/
def blockRegs (x : RegId) : List RegId := (List.finRange 16).filter fun r => decide (r ≤ x)

/-- The addresses of `count` bytes from `addr` on. -/
def byteRange (addr count : Nat) : List Nat := (List.range count).map fun i => addr + i

/-- What each instruction may change, by its rule (R22, R24, R124). -/
def footprint : Instr → State → Footprint
  | .cls, _ => { dq := true }
  | .ret, _ => { stack := true }
  | .sys _, _ => {}
  | .jp _, _ => {}
  | .call _, _ => { stack := true }
  | .seImm _ _, _ => {}
  | .sneImm _ _, _ => {}
  | .seReg _ _ _, _ => {}
  | .ldImm x _, _ => { regs := [x] }
  | .addImm x _, _ => { regs := [x] }
  | .ldReg x _, _ => { regs := [x] }
  | .orReg x _, _ => { regs := [x, VF] }
  | .andReg x _, _ => { regs := [x, VF] }
  | .xorReg x _, _ => { regs := [x, VF] }
  | .addReg x _, _ => { regs := [x, VF] }
  | .subReg x _, _ => { regs := [x, VF] }
  | .shrReg x _, _ => { regs := [x, VF] }
  | .subnReg x _, _ => { regs := [x, VF] }
  | .shlReg x _, _ => { regs := [x, VF] }
  | .sneReg _ _ _, _ => {}
  | .ldI _, _ => { index := true }
  | .jpV0 _, _ => {}
  | .rnd x _, _ => { regs := [x], draws := true }
  | .drw _ _ _, _ => { dq := true }
  | .skp _, _ => {}
  | .sknp _, _ => {}
  | .ldVxDT x, _ => { regs := [x] }
  | .ldVxK x, _ => { regs := [x], latch := true }
  | .ldDTVx _, _ => { dt := true }
  | .ldSTVx _, _ => { st := true }
  | .addI _, _ => { index := true }
  | .ldF _, _ => { index := true }
  | .ldB _, s => { bytes := byteRange s.I.toNat 3 }
  | .storeBlock x, s => { bytes := byteRange s.I.toNat (x.val + 1), index := true }
  | .loadBlock x, _ => { regs := blockRegs x, index := true }
  | .unrec8 _ _ _, _ => {}
  | .unrecE _ _, _ => {}
  | .unrecF _ _, _ => {}

/-- An instruction whose only effect besides `pc` is to leave `f` in `V[0xF]`. -/
def LeavesFlagOnly (i : Instr) (f : Byte) (s : State) : Prop :=
  ∃ t, exec i s = .next t ∧ t.getV VF = f ∧ t.pc = s.pc + 2 ∧ Frame { regs := [VF] } s t

/-! ### Causes and commands -/

/-- How many bytes from `I` on an instruction reads or writes as data (R62, R66). -/
def dataCount : Instr → Nat
  | .cls => 0
  | .ret => 0
  | .sys _ => 0
  | .jp _ => 0
  | .call _ => 0
  | .seImm _ _ => 0
  | .sneImm _ _ => 0
  | .seReg _ _ _ => 0
  | .ldImm _ _ => 0
  | .addImm _ _ => 0
  | .ldReg _ _ => 0
  | .orReg _ _ => 0
  | .andReg _ _ => 0
  | .xorReg _ _ => 0
  | .addReg _ _ => 0
  | .subReg _ _ => 0
  | .shrReg _ _ => 0
  | .subnReg _ _ => 0
  | .shlReg _ _ => 0
  | .sneReg _ _ _ => 0
  | .ldI _ => 0
  | .jpV0 _ => 0
  | .rnd _ _ => 0
  | .drw _ _ n => n.toNat
  | .skp _ => 0
  | .sknp _ => 0
  | .ldVxDT _ => 0
  | .ldVxK _ => 0
  | .ldDTVx _ => 0
  | .ldSTVx _ => 0
  | .addI _ => 0
  | .ldF _ => 0
  | .ldB _ => 3
  | .storeBlock x => x.val + 1
  | .loadBlock x => x.val + 1
  | .unrec8 _ _ _ => 0
  | .unrecE _ _ => 0
  | .unrecF _ _ => 0

/-- The instruction's data does not all lie in memory, the sum taken without wrap (R67). -/
def dataOutside (i : Instr) (s : State) : Prop := 1 ≤ dataCount i ∧ 4095 < s.I.toNat + dataCount i - 1

/-- The instruction is one that appends a command to the draw queue (R31). -/
def appends (i : Instr) : Prop := i = .cls ∨ ∃ x y n, i = .drw x y n

/-- A sprite sets a pixel of the frame: row `r`, column `c` counted from bit 7 (R224, R225). -/
def spriteCovers (ox : Fin 64) (oy : Fin 32) (rows : List Byte) (px : Fin 64) (py : Fin 32) : Prop :=
  ∃ r c row, rows[r]? = some row ∧ c < 8 ∧ row.getLsbD (7 - c) = true ∧ px.val = ox.val + c ∧ py.val = oy.val + r

/-! ### The invariant -/

/-- A command of the queue is one the spec allows: at most 15 rows (R31, R214). -/
def DrawCommand.wf : DrawCommand → Bool
  | .clear => true
  | .draw _ _ rows => decide (rows.length ≤ 15)

/-- What holds of every state a run reaches. -/
structure Inv (s : State) : Prop where
  /-- Memory is in its canonical form (R60). -/
  mem : Memory.wf s.mem = true
  /-- `pc` is at most `0xFFF + 0xFF` (R24). -/
  pc : s.pc.toNat ≤ 0x10FE
  /-- A return address is at most 4096 (R24, R146). -/
  stack : ∀ v ∈ s.stack, v.toNat ≤ 4096
  /-- The stack holds at most `STACK_DEPTH` entries (R26). -/
  depth : ∀ d, s.limits.stackDepth = some d → s.stack.length ≤ d
  /-- Every queued command is one the spec allows (R214). -/
  commands : ∀ c ∈ s.dq, c.wf = true
  /-- The queue holds at most `DRAWQ_DEPTH` commands (R31). -/
  queue : ∀ d, s.limits.drawqDepth = some d → s.dq.length ≤ d
  /-- While the latch is not `Idle`, the word at `pc` is a key-wait (R247). -/
  wait : s.latch ≠ .idle → ∃ x, fetch16 s = some (encode (.ldVxK x))

/-- A `Reset` of the schedule starts at a `pc` that the invariant allows; every other transaction is allowed. The
default `RESET_PC` is 0x200 (R8). -/
def Transaction.startsBelow : Transaction → Prop
  | .reset b _ => b.resetPc.toNat ≤ 0x10FE
  | .instrCycle => True
  | .timerTick => True
  | .keyEvent _ _ => True
  | .drawPoll => True
  | .setCollision _ => True
  | .soundTimer => True
  | .waiting => True

/-- A transaction that is neither `Reset` nor `InstrCycle` (R276, R282). -/
def Transaction.external : Transaction → Bool
  | .reset _ _ => false
  | .instrCycle => false
  | .timerTick => true
  | .keyEvent _ _ => true
  | .drawPoll => true
  | .setCollision _ => true
  | .soundTimer => true
  | .waiting => true

end Sys2Proof.Machine
end

