-- ==== Sys2Proof/Certificates/Slice0/Obligations.lean ====
section
/-! DEFINITION. The statements for the provers, from the numbered rules of spec/. A docstring says which rule a
statement formalises, and where a clause is the model's or the spec's own choice, which. -/

open Sys2Proof Sys2Proof.Machine

/-! ### Encoding -/

/-- Every well-formed instruction, with every operand at every value its encoding admits, is decoded from its word.
The numeric opcode values are the spec's presumption (D2, log 6). -/
def Obligations.DecodingAnEncodedInstructionGivesItBack : Prop :=
  ∀ i : Instr, i.wellFormed = true → decode (encode i) = i

/-- Every word is the encoding of what it decodes to, which is well-formed: no bit of a word is dropped, no word is
without an instruction, no two words share one. (R91, R97, R98; the values are D2, log 6; the nibble of `5xy_` and
`9xy_` is kept in the syntax, log 7.) -/
def Obligations.EncodingADecodedWordGivesItBack : Prop :=
  ∀ w : Word16, (decode w).wellFormed = true ∧ encode (decode w) = w

/-- A few words written out bit by bit from the patterns of R95. -/
def Obligations.WrittenOutWordsDecodeToTheirInstructions : Prop :=
  decode 0b0000000011100000 = .cls ∧
  decode 0b0000000100100011 = .sys 0x123 ∧
  decode 0b0010001000001000 = .call 0x208 ∧
  decode 0b0100001000010001 = .sneImm 2 0x11 ∧
  decode 0b1000001110100101 = .subReg 3 10 ∧
  decode 0b1101001110100101 = .drw 3 10 5 ∧
  decode 0b1110111110100001 = .sknp 15 ∧
  decode 0b1111001100001010 = .ldVxK 3 ∧
  decode 0b1000000000011000 = .unrec8 0 1 0x8

/-- The fields of a word by bit positions (R91). -/
def Obligations.FieldsAreTheNamedBits : Prop :=
  ∀ (w : Word16) (i : Nat),
    (fieldOp w).getLsbD i = (decide (i < 4) && w.getLsbD (12 + i)) ∧
    (BitVec.ofFin (w := 4) (fieldX w)).getLsbD i = (decide (i < 4) && w.getLsbD (8 + i)) ∧
    (BitVec.ofFin (w := 4) (fieldY w)).getLsbD i = (decide (i < 4) && w.getLsbD (4 + i)) ∧
    (fieldN w).getLsbD i = (decide (i < 4) && w.getLsbD i) ∧
    (fieldKK w).getLsbD i = (decide (i < 8) && w.getLsbD i) ∧
    (fieldNNN w).getLsbD i = (decide (i < 12) && w.getLsbD i)

/-- The decoder agrees with the opcode table read by the rule of R99: the row of the instruction it gives matches the
word, and every other matching row has fewer 1 bits in its mask. -/
def Obligations.DecoderPicksTheMostSpecificMatchingRow : Prop :=
  ∀ w : Word16,
    opcodeRow (decode w) ∈ opcodeTable ∧ (opcodeRow (decode w)).matches w = true ∧
    ∀ r ∈ opcodeTable, r.matches w = true → r = opcodeRow (decode w) ∨ r.weight < (opcodeRow (decode w)).weight

/-- Which words are unrecognised, by the numbers of R97; the selector values are the spec's presumption (D2, log 6). -/
def Obligations.UnrecognisedWordsAreTheUnnamedSelectors : Prop :=
  ∀ w : Word16, (decode w).unrecognised = true ↔
    (w.toNat / 0x1000 = 0x0 ∧ w.toNat % 0x1000 ∉ [0x0E0, 0x0EE]) ∨
    (w.toNat / 0x1000 = 0x8 ∧ w.toNat % 0x10 ∈ [0x8, 0x9, 0xA, 0xB, 0xC, 0xD, 0xF]) ∨
    (w.toNat / 0x1000 = 0xE ∧ w.toNat % 0x100 ∉ [0x9E, 0xA1]) ∨
    (w.toNat / 0x1000 = 0xF ∧ w.toNat % 0x100 ∉ [0x07, 0x0A, 0x15, 0x18, 0x1E, 0x29, 0x33, 0x55, 0x65])

/-! ### The cycle -/

/-- A step runs the instruction that the two bytes at `pc` decode to, big-endian; the advance of `pc` by 2 is in
`exec` (log 21). Together with the statements about `exec` this is R120. -/
def Obligations.StepRunsTheDecodedInstruction : Prop :=
  ∀ (s : State) (i : Instr), s.fault = none → s.pc.toNat + 1 ≤ 4095 → i.wellFormed = true →
    decodeBytes [s.readByte s.pc.toNat, s.readByte (s.pc.toNat + 1)] = .ok (i, []) →
    step s = exec i s

/-- A running CORE takes the fetch fault exactly when `pc + 1 > 4095`, and then nothing else changes, `pc` included
(R121, R271). That nothing else changes is the spec's decision D16 (log 1). -/
def Obligations.FetchFaultsExactlyBeyondMemory : Prop :=
  ∀ s : State, s.fault = none →
    (4095 < s.pc.toNat + 1 → step s = .next { s with fault := some .fetchOutOfBounds }) ∧
    (s.pc.toNat + 1 ≤ 4095 → ∀ t, step s = .next t → t.fault ≠ some .fetchOutOfBounds)

/-- A halted CORE ignores any number of cycles (R125, the spec's decision D16; log 1). -/
def Obligations.HaltedCoreIgnoresEveryCycle : Prop :=
  ∀ (s : State) (c : Fault) (n : Nat), s.fault = some c → runCycles n s = .next s

/-- A cycle that raises a fault changes nothing but `fault` (R12, R270, the spec's decision D16; log 1). -/
def Obligations.FaultingCycleChangesOnlyTheFaultField : Prop :=
  ∀ s t : State, s.fault = none → step s = .next t → t.fault ≠ none → t = { s with fault := t.fault }

/-- Every state answers a step with a next state: no instruction is refused and none stops the machine outside the
state (R98, R125, R126, R270; log 1). -/
def Obligations.EveryStateHasANextState : Prop :=
  ∀ s : State, ∃ t, step s = .next t

/-- Which instruction raises which fault, and when: the table of R278, with the order of R129. The conditions of the
last three causes rest on the spec's decisions D4, D6, D7 (logs 3, 8), that a cause is recorded on D16 (log 1). -/
def Obligations.FaultCausesAreThoseOfTheTable : Prop :=
  ∀ (i : Instr) (s t : State), s.fault = none → exec i s = .next t →
    t.fault ≠ some .fetchOutOfBounds ∧
    (t.fault = some .returnEmptyStack ↔ i = .ret ∧ s.stack = []) ∧
    (t.fault = some .stackOverflow ↔ (∃ nnn, i = .call nnn) ∧ s.limits.stackDepth = some s.stack.length) ∧
    (t.fault = some .dataOutOfBounds ↔ dataOutside i s) ∧
    (t.fault = some .drawQueueOverflow ↔
      appends i ∧ ¬ dataOutside i s ∧ s.limits.drawqDepth = some s.dq.length)

/-- The frame of every instruction: when it raises no fault, nothing changes but `pc` and what its footprint names;
every byte of memory outside the stored ones reads as before (R124; for the fault case R270, D16, log 1). -/
def Obligations.EveryInstructionKeepsWhatItsFootprintLeavesOut : Prop :=
  ∀ (i : Instr) (s t : State), exec i s = .next t →
    (∃ c, t = { s with fault := some c }) ∨ Frame (footprint i s) s t

/-- `SYS nnn` and every unrecognised word: `pc` advances, nothing else changes, and the cycle emits the diagnostic
with the address and the word (R126). A recognised word emits none, and neither does a cycle that fetches nothing: one
that takes the fetch fault, and one of a halted CORE (R125, the spec's decision D16; log 1). The reply of the
transaction `InstrCycle` is that diagnostic (R6, R277, the spec's decision D17; log 18). -/
def Obligations.UnrecognisedWordsOnlyAdvanceAndReport : Prop :=
  (∀ (i : Instr) (s : State), i.unrecognised = true →
    ∃ t, exec i s = .next t ∧ t.pc = s.pc + 2 ∧ Frame {} s t) ∧
  (∀ (s : State) (w : Word16), s.fault = none → fetch16 s = some w →
    diagnostic s = if (decode w).unrecognised = true then some ⟨s.pc, w⟩ else none) ∧
  (∀ s : State, s.fault ≠ none ∨ fetch16 s = none → diagnostic s = none) ∧
  (∀ s : State, ∃ t, step s = .next t ∧ transact .instrCycle s = some (t, .diagnostic (diagnostic s)))

/-! ### Control transfer -/

/-- `RET` pops the top of the stack into `pc`; on an empty stack it is fatal (R140; that the fault keeps the rest is
D16, log 1). -/
def Obligations.ReturnPopsThePc : Prop :=
  ∀ s : State,
    (∀ v rest, s.stack = v :: rest →
      ∃ t, exec .ret s = .next t ∧ t.pc = v ∧ t.stack = rest ∧ Frame { stack := true } s t) ∧
    (s.stack = [] → exec .ret s = .next { s with fault := some .returnEmptyStack })

/-- `JP nnn` sets `pc` to the absolute address (R142). -/
def Obligations.JumpSetsThePcToItsAddress : Prop :=
  ∀ (nnn : Addr12) (s : State),
    ∃ t, exec (.jp nnn) s = .next t ∧ t.pc.toNat = nnn.toNat ∧ Frame {} s t

/-- `JP V0, nnn` sets `pc` to `nnn + V[0]`, not reduced to 12 bits (R152, the spec's decision D32; log 11). -/
def Obligations.IndexedJumpAddsRegisterZero : Prop :=
  ∀ (nnn : Addr12) (s : State),
    ∃ t, exec (.jpV0 nnn) s = .next t ∧ t.pc.toNat = nnn.toNat + (s.getV 0).toNat ∧ Frame {} s t

/-- `CALL nnn` pushes the address of the next instruction and jumps; on a full stack it is fatal (R146; the finite
depth is the parameter of D6, log 3, that the fault keeps the rest is D16, log 1). -/
def Obligations.CallPushesTheNextAddressAndJumps : Prop :=
  ∀ (nnn : Addr12) (s : State),
    (s.limits.stackDepth ≠ some s.stack.length →
      ∃ t, exec (.call nnn) s = .next t ∧ t.pc.toNat = nnn.toNat ∧ t.stack = (s.pc + 2) :: s.stack ∧
        Frame { stack := true } s t) ∧
    (s.limits.stackDepth = some s.stack.length →
      exec (.call nnn) s = .next { s with fault := some .stackOverflow })

/-- A `RET` after a `CALL`, in any later state with the stack as the `CALL` left it, continues at the instruction
after the `CALL` and leaves the stack as it was before it (R140, R146). -/
def Obligations.ReturnAfterCallContinuesBehindTheCall : Prop :=
  ∀ (nnn : Addr12) (s t u : State), s.fault = none → exec (.call nnn) s = .next t → t.fault = none →
    u.stack = t.stack →
    ∃ v, exec .ret u = .next v ∧ v.pc = s.pc + 2 ∧ v.stack = s.stack

/-- `SE Vx, kk` and `SNE Vx, kk`: `pc` is `a + 4` when the condition holds, else `a + 2` (R148, R149). -/
def Obligations.ImmediateSkipsMoveThePcByTheCondition : Prop :=
  ∀ (x : RegId) (kk : Byte) (s : State),
    (∃ t, exec (.seImm x kk) s = .next t ∧ (t.pc = if s.getV x = kk then s.pc + 4 else s.pc + 2) ∧ Frame {} s t) ∧
    (∃ t, exec (.sneImm x kk) s = .next t ∧ (t.pc = if s.getV x = kk then s.pc + 2 else s.pc + 4) ∧ Frame {} s t)

/-- `SE Vx, Vy` and `SNE Vx, Vy`, for every value of the low nibble (R150, R151; that the nibble is ignored is the
spec's decision D25, log 7). -/
def Obligations.RegisterSkipsIgnoreTheLowNibble : Prop :=
  ∀ (x y : RegId) (z : Nibble) (s : State),
    (∃ t, exec (.seReg x y z) s = .next t ∧ (t.pc = if s.getV x = s.getV y then s.pc + 4 else s.pc + 2) ∧
      Frame {} s t) ∧
    (∃ t, exec (.sneReg x y z) s = .next t ∧ (t.pc = if s.getV x = s.getV y then s.pc + 2 else s.pc + 4) ∧
      Frame {} s t)

/-! ### Arithmetic and logic -/

/-- `LD Vx, kk` and `LD Vx, Vy` write the destination and no flag (R160, R164). -/
def Obligations.LoadsWriteOnlyTheirDestination : Prop :=
  ∀ (x y : RegId) (kk : Byte) (s : State),
    (∃ t, exec (.ldImm x kk) s = .next t ∧ t.getV x = kk ∧ t.pc = s.pc + 2 ∧ Frame { regs := [x] } s t) ∧
    (∃ t, exec (.ldReg x y) s = .next t ∧ t.getV x = s.getV y ∧ t.pc = s.pc + 2 ∧ Frame { regs := [x] } s t)

/-- `ADD Vx, kk` wraps modulo 256 and writes no flag (R162). -/
def Obligations.AddImmediateWrapsWithoutAFlag : Prop :=
  ∀ (x : RegId) (kk : Byte) (s : State),
    ∃ t, exec (.addImm x kk) s = .next t ∧ (t.getV x).toNat = ((s.getV x).toNat + kk.toNat) % 256 ∧
      t.pc = s.pc + 2 ∧ Frame { regs := [x] } s t

/-- `OR`, `AND`, `XOR` are bitwise and reset the flag register (R166, R167, R168). The form with `x = 0xF` is in
`FlagOutlastsTheResultInRegisterF`. -/
def Obligations.BitwiseOperationsResetTheFlag : Prop :=
  ∀ (x y : RegId) (s : State), x ≠ VF →
    (∃ t, exec (.orReg x y) s = .next t ∧
      (∀ i, (t.getV x).getLsbD i = ((s.getV x).getLsbD i || (s.getV y).getLsbD i)) ∧ t.getV VF = 0 ∧
      t.pc = s.pc + 2 ∧ Frame { regs := [x, VF] } s t) ∧
    (∃ t, exec (.andReg x y) s = .next t ∧
      (∀ i, (t.getV x).getLsbD i = ((s.getV x).getLsbD i && (s.getV y).getLsbD i)) ∧ t.getV VF = 0 ∧
      t.pc = s.pc + 2 ∧ Frame { regs := [x, VF] } s t) ∧
    (∃ t, exec (.xorReg x y) s = .next t ∧
      (∀ i, (t.getV x).getLsbD i = ((s.getV x).getLsbD i != (s.getV y).getLsbD i)) ∧ t.getV VF = 0 ∧
      t.pc = s.pc + 2 ∧ Frame { regs := [x, VF] } s t)

/-- `ADD Vx, Vy`: the sum modulo 256, and the carry in the flag register (R170). The form with `x = 0xF` is in
`FlagOutlastsTheResultInRegisterF`. -/
def Obligations.AddRegistersRecordsTheCarry : Prop :=
  ∀ (x y : RegId) (s : State), x ≠ VF →
    ∃ t, exec (.addReg x y) s = .next t ∧
      (t.getV x).toNat = ((s.getV x).toNat + (s.getV y).toNat) % 256 ∧
      (t.getV VF).toNat = (if (s.getV x).toNat + (s.getV y).toNat > 255 then 1 else 0) ∧
      t.pc = s.pc + 2 ∧ Frame { regs := [x, VF] } s t

/-- `SUB` and `SUBN`: the difference modulo 256 in `V[x]`, 1 in the flag register when there is no borrow (R172,
R176). The form with `x = 0xF` is in `FlagOutlastsTheResultInRegisterF`. -/
def Obligations.SubtractionsRecordNotBorrow : Prop :=
  ∀ (x y : RegId) (s : State), x ≠ VF →
    (∃ t, exec (.subReg x y) s = .next t ∧
      (t.getV x).toNat = ((s.getV x).toNat + 256 - (s.getV y).toNat) % 256 ∧
      (t.getV VF).toNat = (if (s.getV x).toNat ≥ (s.getV y).toNat then 1 else 0) ∧
      t.pc = s.pc + 2 ∧ Frame { regs := [x, VF] } s t) ∧
    (∃ t, exec (.subnReg x y) s = .next t ∧
      (t.getV x).toNat = ((s.getV y).toNat + 256 - (s.getV x).toNat) % 256 ∧
      (t.getV VF).toNat = (if (s.getV y).toNat ≥ (s.getV x).toNat then 1 else 0) ∧
      t.pc = s.pc + 2 ∧ Frame { regs := [x, VF] } s t)

/-- `SHR` and `SHL` shift the value of `Vy`, not of `Vx`, and record the bit shifted out (R174, R178). The form with
`x = 0xF` is in `FlagOutlastsTheResultInRegisterF`. -/
def Obligations.ShiftsTakeTheirSourceFromVy : Prop :=
  ∀ (x y : RegId) (s : State), x ≠ VF →
    (∃ t, exec (.shrReg x y) s = .next t ∧ (t.getV x).toNat = (s.getV y).toNat / 2 ∧
      (t.getV VF).toNat = (s.getV y).toNat % 2 ∧ t.pc = s.pc + 2 ∧ Frame { regs := [x, VF] } s t) ∧
    (∃ t, exec (.shlReg x y) s = .next t ∧ (t.getV x).toNat = (s.getV y).toNat * 2 % 256 ∧
      (t.getV VF).toNat = (s.getV y).toNat / 128 ∧ t.pc = s.pc + 2 ∧ Frame { regs := [x, VF] } s t)

/-- With `x = 0xF` the flag is what remains in `V[0xF]` and the result is lost, for all eight instructions that write
both (R157, the spec's decision D8; log 9). -/
def Obligations.FlagOutlastsTheResultInRegisterF : Prop :=
  ∀ (y : RegId) (s : State),
    LeavesFlagOnly (.orReg VF y) 0 s ∧ LeavesFlagOnly (.andReg VF y) 0 s ∧ LeavesFlagOnly (.xorReg VF y) 0 s ∧
    LeavesFlagOnly (.addReg VF y) (if (s.getV VF).toNat + (s.getV y).toNat > 255 then 1 else 0) s ∧
    LeavesFlagOnly (.subReg VF y) (if (s.getV VF).toNat ≥ (s.getV y).toNat then 1 else 0) s ∧
    LeavesFlagOnly (.subnReg VF y) (if (s.getV y).toNat ≥ (s.getV VF).toNat then 1 else 0) s ∧
    LeavesFlagOnly (.shrReg VF y) (BitVec.ofNat 8 ((s.getV y).toNat % 2)) s ∧
    LeavesFlagOnly (.shlReg VF y) (BitVec.ofNat 8 ((s.getV y).toNat / 128)) s

/-- `RND Vx, kk` writes the AND of the draw and the immediate and no flag, and uses the draw up: the next `RND` takes
another one, with no relation to it. The draw is a free value (R34, R180, D18; log 2): the last clause holds for every
byte, and nothing is said of which one comes. -/
def Obligations.RandomAndsTheDrawWithTheImmediate : Prop :=
  ∀ (x : RegId) (kk : Byte) (s : State),
    (∃ t, exec (.rnd x kk) s = .next t ∧ t.getV x = Config.randomByte s.draws &&& kk ∧ t.getV x &&& ~~~kk = 0 ∧
      t.draws = s.draws + 1 ∧ t.pc = s.pc + 2 ∧ Frame { regs := [x], draws := true } s t) ∧
    ∀ rand, (rndWith rand x kk s).getV x = rand &&& kk

/-! ### Index register and memory -/

/-- `LD I, nnn` (R190). -/
def Obligations.LoadIndexWritesTheAddress : Prop :=
  ∀ (nnn : Addr12) (s : State),
    ∃ t, exec (.ldI nnn) s = .next t ∧ t.I.toNat = nnn.toNat ∧ t.pc = s.pc + 2 ∧ Frame { index := true } s t

/-- `ADD I, Vx` wraps at 16 bits and writes no flag (R192; the width of the wrap is the spec's decision D5, log 11);
`LD F, Vx` takes all 8 bits of the register (R194, the spec's decision D26; log 10). -/
def Obligations.IndexSumsWrapAndGlyphAddressesUseTheWholeByte : Prop :=
  ∀ (x : RegId) (s : State),
    (∃ t, exec (.addI x) s = .next t ∧ t.I.toNat = (s.I.toNat + (s.getV x).toNat) % 65536 ∧ t.pc = s.pc + 2 ∧
      Frame { index := true } s t) ∧
    (∃ t, exec (.ldF x) s = .next t ∧ t.I.toNat = 5 * (s.getV x).toNat ∧ t.pc = s.pc + 2 ∧
      Frame { index := true } s t)

/-- `LD B, Vx` stores three decimal digits, most significant first, at `I`, which is unchanged; beyond memory it is
fatal with no byte written (R196; the fault is the spec's decisions D4 and D16, logs 1 and 8). -/
def Obligations.BcdStoresThreeDecimalDigits : Prop :=
  ∀ (x : RegId) (s : State), Memory.wf s.mem = true →
    (s.I.toNat + 2 ≤ 4095 →
      ∃ t, exec (.ldB x) s = .next t ∧
        100 * (t.readByte s.I.toNat).toNat + 10 * (t.readByte (s.I.toNat + 1)).toNat
          + (t.readByte (s.I.toNat + 2)).toNat = (s.getV x).toNat ∧
        (t.readByte (s.I.toNat + 1)).toNat ≤ 9 ∧ (t.readByte (s.I.toNat + 2)).toNat ≤ 9 ∧
        t.pc = s.pc + 2 ∧ Frame { bytes := byteRange s.I.toNat 3 } s t) ∧
    (4095 < s.I.toNat + 2 → exec (.ldB x) s = .next { s with fault := some .dataOutOfBounds })

/-- `LD [I], Vx` stores `V[0]` to `V[x]` from `I` on and advances `I` by `x + 1`; beyond memory it is fatal with no
byte written (R198; the fault is the spec's decisions D4 and D16, logs 1 and 8). -/
def Obligations.StoreBlockCopiesRegistersAndAdvancesIndex : Prop :=
  ∀ (x : RegId) (s : State), Memory.wf s.mem = true →
    (s.I.toNat + x.val ≤ 4095 →
      ∃ t, exec (.storeBlock x) s = .next t ∧
        (∀ i : RegId, i ≤ x → t.readByte (s.I.toNat + i.val) = s.getV i) ∧
        t.I.toNat = s.I.toNat + x.val + 1 ∧ t.pc = s.pc + 2 ∧
        Frame { bytes := byteRange s.I.toNat (x.val + 1), index := true } s t) ∧
    (4095 < s.I.toNat + x.val → exec (.storeBlock x) s = .next { s with fault := some .dataOutOfBounds })

/-- `LD Vx, [I]` loads `V[0]` to `V[x]`, leaves the registers above alone and advances `I` by `x + 1`; beyond memory
it is fatal with no register written (R200; the fault is the spec's decisions D4 and D16, logs 1 and 8). -/
def Obligations.LoadBlockCopiesMemoryAndAdvancesIndex : Prop :=
  ∀ (x : RegId) (s : State),
    (s.I.toNat + x.val ≤ 4095 →
      ∃ t, exec (.loadBlock x) s = .next t ∧
        (∀ i : RegId, i ≤ x → t.getV i = s.readByte (s.I.toNat + i.val)) ∧
        t.I.toNat = s.I.toNat + x.val + 1 ∧ t.pc = s.pc + 2 ∧
        Frame { regs := blockRegs x, index := true } s t) ∧
    (4095 < s.I.toNat + x.val → exec (.loadBlock x) s = .next { s with fault := some .dataOutOfBounds })

/-- A block that was stored is loaded back from the same address, whatever the registers held in between: the source's
round-trip property, as the spec resolves it (C5, R198, R200). -/
def Obligations.StoredBlockLoadsBackUnchanged : Prop :=
  ∀ (x : RegId) (s t u : State), Memory.wf s.mem = true → s.fault = none → exec (.storeBlock x) s = .next t →
    t.fault = none → u.mem = t.mem → u.I = s.I →
    ∃ v, exec (.loadBlock x) u = .next v ∧ (∀ i : RegId, i ≤ x → v.getV i = s.getV i) ∧ v.I = t.I

/-- The fetch reads what a store of the cycle before it put there: a block stored onto the next instruction is the
instruction that is fetched (R63, R72). -/
def Obligations.NextFetchReadsWhatWasStored : Prop :=
  ∀ (x : RegId) (s t : State), Memory.wf s.mem = true → s.fault = none → 1 ≤ x.val → s.I = s.pc + 2 →
    s.pc.toNat ≤ 4094 → exec (.storeBlock x) s = .next t → t.fault = none →
    fetch16 t = some (BitVec.ofNat 16 ((s.getV 0).toNat * 256 + (s.getV 1).toNat))

/-! ### Display -/

/-- `CLS` appends `Clear` behind the commands already queued; onto a full queue it is fatal (R210; the finite depth is
the parameter of D7, log 3, that the fault keeps the rest is D16, log 1). -/
def Obligations.ClearIsAppendedToTheQueue : Prop :=
  ∀ s : State,
    (s.limits.drawqDepth ≠ some s.dq.length →
      ∃ t, exec .cls s = .next t ∧ t.dq = s.dq ++ [.clear] ∧ t.pc = s.pc + 2 ∧ Frame { dq := true } s t) ∧
    (s.limits.drawqDepth = some s.dq.length → exec .cls s = .next { s with fault := some .drawQueueOverflow })

/-- `DRW Vx, Vy, n` appends a `Draw` with the reduced origin and the `n` bytes at `I`, and writes no flag; beyond
memory, then onto a full queue, it is fatal with nothing appended (R129, R212; the faults are the spec's decisions D4,
D7 and D16, logs 1, 3 and 8). -/
def Obligations.DrawQueuesTheSpriteWithoutAFlag : Prop :=
  ∀ (x y : RegId) (n : Nibble) (s : State),
    (n.toNat = 0 ∨ s.I.toNat + n.toNat - 1 ≤ 4095 →
      (s.limits.drawqDepth ≠ some s.dq.length →
        ∃ t ox oy rows, exec (.drw x y n) s = .next t ∧ t.dq = s.dq ++ [.draw ox oy rows] ∧
          ox.val = (s.getV x).toNat % 64 ∧ oy.val = (s.getV y).toNat % 32 ∧ rows.length = n.toNat ∧
          (∀ i, i < n.toNat → rows[i]? = some (s.readByte (s.I.toNat + i))) ∧
          t.pc = s.pc + 2 ∧ Frame { dq := true } s t) ∧
      (s.limits.drawqDepth = some s.dq.length →
        exec (.drw x y n) s = .next { s with fault := some .drawQueueOverflow })) ∧
    (n.toNat ≠ 0 ∧ 4095 < s.I.toNat + n.toNat - 1 →
      exec (.drw x y n) s = .next { s with fault := some .dataOutOfBounds })

/-- As many polls as there are commands return every queued command once, in the order they were queued, and leave
nothing but an empty queue changed; one `DrawPoll` removes and returns the front command, or answers `None` and changes
nothing when the queue is empty (R216, R218). -/
def Obligations.PollsReturnTheCommandsInOrder : Prop :=
  ∀ s : State, pollTimes s.dq.length s = (s.dq, { s with dq := [] }) ∧
    (s.dq = [] → transact .drawPoll s = some (s, .command none)) ∧
    (∀ c rest, s.dq = c :: rest → transact .drawPoll s = some ({ s with dq := rest }, .command (some c)))

/-- A `Draw` on a display XORs exactly the sprite's pixels that lie in the frame, and reports a collision when one of
them was set before (R224; that bit 7 is column 0 is the spec's presumption D13, log 16). -/
def Obligations.BlitXorsTheSpriteAndReportsCollision : Prop :=
  ∀ (d : Display) (ox : Fin 64) (oy : Fin 32) (rows : List Byte),
    (∀ px py, (spriteCovers ox oy rows px py → (blit d ox oy rows).1.pixel px py = !d.pixel px py) ∧
      (¬ spriteCovers ox oy rows px py → (blit d ox oy rows).1.pixel px py = d.pixel px py)) ∧
    ((blit d ox oy rows).2 = true ↔ ∃ px py, spriteCovers ox oy rows px py ∧ d.pixel px py = true)

/-- Drawing the same sprite twice at the same origin restores the display, and the second draw reports a collision
exactly when a visible set bit of the sprite falls on a pixel that was 0 before the first (R228; which bits those are,
bit 7 being column 0, is the spec's presumption D13, log 16). -/
def Obligations.DrawingTwiceRestoresTheDisplay : Prop :=
  ∀ (d : Display) (ox : Fin 64) (oy : Fin 32) (rows : List Byte),
    (blit (blit d ox oy rows).1 ox oy rows).1 = d ∧
    ((blit (blit d ox oy rows).1 ox oy rows).2 = true ↔
      ∃ px py, spriteCovers ox oy rows px py ∧ d.pixel px py = false)

/-- One renderer step (R226): with an empty queue it changes nothing; with `Clear` in front it takes the command off,
blanks the display and leaves the flag (R223, no `SetCollision` on `Clear` is the spec's decision D12); with a `Draw` in
front it takes it off, draws it, and reports the collision, an empty `Draw`'s too (R224, D12; log 16). What `blit` does
is in `BlitXorsTheSpriteAndReportsCollision`. -/
def Obligations.RendererStepPerformsTheFrontCommand : Prop :=
  ∀ y : System,
    (y.core.dq = [] → rendererStep y = y) ∧
    (∀ rest, y.core.dq = .clear :: rest →
      (rendererStep y).core = { y.core with dq := rest } ∧ ∀ px py, (rendererStep y).disp.pixel px py = false) ∧
    (∀ ox oy rows rest, y.core.dq = .draw ox oy rows :: rest →
      (rendererStep y).disp = (blit y.disp ox oy rows).1 ∧
      ((rendererStep y).core.getV VF).toNat = (if (blit y.disp ox oy rows).2 then 1 else 0) ∧
      (rendererStep y).core.dq = rest ∧ (rendererStep y).core.pc = y.core.pc ∧
      Frame { regs := [VF], dq := true } y.core (rendererStep y).core)

/-- Under `after_every_cycle` every cycle ends with an empty queue, and each command that was in it has been performed
once, in queue order, on the CORE as the cycle left it and on the display as it was: none is dropped, and the flag ends
with the last `Draw`'s collision (R226, R227, R321; the policy is the spec's open parameter D11, log 16). -/
def Obligations.DrainedQueueIsEmptyAfterEveryCycle : Prop :=
  ∀ y : System, ∃ t y', step y.core = .next t ∧ systemCycle .afterEveryCycle y = some y' ∧ y'.core.dq = [] ∧
    y' = t.dq.foldl (fun z c => perform c z) { core := { t with dq := [] }, disp := y.disp }

/-- The hazard of `DRW`: right after it `V[0xF]` holds the collision under `after_every_cycle` and its old value under
`any_time` (R212, R227, R320, D11; log 16). -/
def Obligations.CollisionArrivesOnlyWithTheRenderer : Prop :=
  ∀ (z : System) (x y : RegId) (n : Nibble) (w : Word16), z.core.fault = none → z.core.dq = [] →
    z.core.limits.drawqDepth ≠ some 0 → fetch16 z.core = some w → decode w = .drw x y n →
    ¬ dataOutside (.drw x y n) z.core →
    (∃ z', systemCycle .anyTime z = some z' ∧ z'.core.getV VF = z.core.getV VF ∧ z'.disp = z.disp) ∧
    (∃ z' ox oy rows, systemCycle .afterEveryCycle z = some z' ∧
      ox.val = (z.core.getV x).toNat % 64 ∧ oy.val = (z.core.getV y).toNat % 32 ∧
      rows = Memory.readBytes z.core.mem z.core.I.toNat n.toNat ∧
      z'.core.getV VF = (if (blit z.disp ox oy rows).2 then 1 else 0) ∧ z'.disp = (blit z.disp ox oy rows).1)

/-! ### Keys and timers -/

/-- `SKP` and `SKNP` test the key named by the low 4 bits of `V[x]` (R240, R242). -/
def Obligations.KeySkipsTestTheLowNibblesKey : Prop :=
  ∀ (x : RegId) (k : Key) (s : State), k.val = (s.getV x).toNat % 16 →
    (∃ t, exec (.skp x) s = .next t ∧ (t.pc = if s.keyDown k then s.pc + 4 else s.pc + 2) ∧ Frame {} s t) ∧
    (∃ t, exec (.sknp x) s = .next t ∧ (t.pc = if s.keyDown k then s.pc + 2 else s.pc + 4) ∧ Frame {} s t)

/-- One execution of `LD Vx, K`, by the latch: it enters the wait, stalls with nothing changed, or completes with the
key's index (R246, in the roll-back form of D24; log 24). -/
def Obligations.KeyWaitEntersStallsOrCompletes : Prop :=
  ∀ (x : RegId) (s : State),
    (s.latch = .idle → exec (.ldVxK x) s = .next { s with latch := .waiting }) ∧
    (s.latch = .waiting → exec (.ldVxK x) s = .next s) ∧
    (∀ k, s.latch = .pressed k → exec (.ldVxK x) s = .next s) ∧
    (∀ k, s.latch = .released k →
      ∃ t, exec (.ldVxK x) s = .next t ∧ (t.getV x).toNat = k.val ∧ t.latch = .idle ∧ t.pc = s.pc + 2 ∧
        Frame { regs := [x], latch := true } s t)

/-- While the latch is `Waiting` or `Pressed`, any number of cycles leaves the whole state unchanged (R247). The
premise `Inv` rules out states no run reaches, in which another word stands at `pc` during a wait. -/
def Obligations.UnresolvedWaitStallsEveryCycle : Prop :=
  ∀ (s : State) (n : Nat), Inv s → s.fault = none → (s.latch = .waiting ∨ ∃ k, s.latch = .pressed k) →
    runCycles n s = .next s

/-- The source's key-wait sequence: a press and a release of a key, with one cycle before, between and after, resolve
on the third cycle and not before; without the cycle between on the second; and the release of another key does not
resolve it (R248). -/
def Obligations.KeyWaitResolvesOnPressThenRelease : Prop :=
  ∀ (s : State) (x : RegId) (k j : Key) (n : Nat), s.fault = none → s.latch = .idle →
    fetch16 s = some (encode (.ldVxK x)) → j ≠ k →
    (∃ t, runTransactions [.instrCycle, .keyEvent k true, .instrCycle] s = some t ∧
      t.pc = s.pc ∧ t.getV x = s.getV x ∧ t.latch = .pressed k) ∧
    (∃ t, runTransactions [.instrCycle, .keyEvent k true, .instrCycle, .keyEvent k false, .instrCycle] s = some t ∧
      t.pc = s.pc + 2 ∧ (t.getV x).toNat = k.val ∧ t.latch = .idle) ∧
    (∃ t, runTransactions [.instrCycle, .keyEvent k true, .keyEvent k false, .instrCycle] s = some t ∧
      t.pc = s.pc + 2 ∧ (t.getV x).toNat = k.val ∧ t.latch = .idle) ∧
    (∃ t, runTransactions ([.instrCycle, .keyEvent k true, .keyEvent j false] ++ List.replicate n .instrCycle) s
        = some t ∧ t.pc = s.pc ∧ t.getV x = s.getV x ∧ t.latch = .pressed k)

/-- The latch's reaction to a key event: the table of R259, whose rows the source does not list are the spec's decision
D33 (log 15). -/
def Obligations.LatchReactsByTheTable : Prop :=
  ∀ (k j : Key) (p : Bool),
    latchNext .idle j p = .idle ∧
    latchNext .waiting j true = .pressed j ∧ latchNext .waiting j false = .waiting ∧
    latchNext (.pressed k) k false = .released k ∧ (j ≠ k → latchNext (.pressed k) j false = .pressed k) ∧
    latchNext (.pressed k) j true = .pressed k ∧
    latchNext (.released k) j p = .released k

/-- `LD Vx, DT`, `LD DT, Vx`, `LD ST, Vx` (R250, R252, R254). -/
def Obligations.TimerInstructionsCopyTheirRegister : Prop :=
  ∀ (x : RegId) (s : State),
    (∃ t, exec (.ldVxDT x) s = .next t ∧ t.getV x = s.dt ∧ t.pc = s.pc + 2 ∧ Frame { regs := [x] } s t) ∧
    (∃ t, exec (.ldDTVx x) s = .next t ∧ t.dt = s.getV x ∧ t.pc = s.pc + 2 ∧ Frame { dt := true } s t) ∧
    (∃ t, exec (.ldSTVx x) s = .next t ∧ t.st = s.getV x ∧ t.pc = s.pc + 2 ∧ Frame { st := true } s t)

/-- Any number of `TimerTick`s: both timers count down, stop at 0, and nothing else changes (R262). -/
def Obligations.TimersCountDownAndStopAtZero : Prop :=
  ∀ (n : Nat) (s : State), ∃ t, runTransactions (List.replicate n .timerTick) s = some t ∧
    t.dt.toNat = s.dt.toNat - n ∧ t.st.toNat = s.st.toNat - n ∧ t = { s with dt := t.dt, st := t.st }

/-! ### The host's transactions -/

/-- `KeyEvent`, `TimerTick`, `DrawPoll`, `SetCollision`, `SoundTimer`, `Waiting` never fail, and none of them touches
`pc`, memory, `I`, the stack, `fault` or a register other than `V[0xF]` (R247, R280). That they go on working on a
halted CORE is the spec's decision D16 (R276 marks it; log 1), that they fall between cycles D10 (log 14). -/
def Obligations.ExternalTransactionsNeverRedirectTheProgram : Prop :=
  ∀ (tr : Transaction) (s : State), tr.external = true → ∃ s' r, transact tr s = some (s', r) ∧
    s'.pc = s.pc ∧ s'.mem = s.mem ∧ s'.I = s.I ∧ s'.stack = s.stack ∧ s'.fault = s.fault ∧
    s'.limits = s.limits ∧ s'.draws = s.draws ∧ ∀ x, x ≠ VF → s'.getV x = s.getV x

/-- What each of them answers and writes: `SetCollision(b)` writes `V[0xF]`, on `false` as on `true`; `SoundTimer`
answers `ST`; `Waiting` answers whether the latch is not `Idle` and `KeyEvent` records the key (R220, R258, R265,
R266; D15, D31, log 15). -/
def Obligations.TransactionsAnswerAndWriteTheirOwnState : Prop :=
  ∀ (s : State) (b : Bool) (k : Key),
    (∃ t, transact (.setCollision b) s = some (t, .nothing) ∧ (t.getV VF).toNat = (if b then 1 else 0) ∧
      t.pc = s.pc ∧ Frame { regs := [VF] } s t) ∧
    transact .soundTimer s = some (s, .soundTimer s.st) ∧
    (∃ q, transact .waiting s = some (s, .waiting q) ∧ (q = true ↔ s.latch ≠ .idle)) ∧
    (∃ t, transact (.keyEvent k b) s = some (t, .nothing) ∧ t.keyDown k = b ∧
      (∀ j, j ≠ k → t.keyDown j = s.keyDown j) ∧ t.latch = latchNext s.latch k b ∧
      t = { s with keys := t.keys, latch := t.latch })

/-- Over any schedule without a `Reset`, a fault once raised stays the same (R33, R276, the spec's decision D16;
log 1). -/
def Obligations.OnlyResetClearsAFault : Prop :=
  ∀ (ts : List Transaction) (s t : State) (c : Fault), (∀ b image, Transaction.reset b image ∉ ts) →
    s.fault = some c → runTransactions ts s = some t → t.fault = some c

/-! ### Reset and the end of a run -/

/-- What `Reset(image)` leaves: the font, the image, zeros between and behind, and every other field zero or empty
(R40, R300); it takes exactly the images of at most 3584 bytes (R302). The state after reset is the one that `Reset`
of the empty image with the default parameters makes. `RESET_PC` and `FONT` are parameters; the default 0x200 of `pc`,
zeros from 0x050 to 0x1FE and the refusal of longer images are the spec's decisions D1, D29, D21 (logs 4, 5, 19, 20).
The system of CORE and renderer starts with the same CORE and every pixel 0, after reset and after each `Reset(image)`
(R222, the spec's decision D14; log 16). -/
def Obligations.ResetLoadsFontAndImage : Prop :=
  State.load defaultBoot [] State.reset = some State.reset ∧ State.reset.pc = 0x200 ∧
  System.reset.core = State.reset ∧ (∀ px py, System.reset.disp.pixel px py = false) ∧
  (∀ (b : Config.Boot) (image : List Byte) (y : System),
    (State.load b image y.core = none → System.load b image y = none) ∧
    (∀ t, State.load b image y.core = some t →
      ∃ z, System.load b image y = some z ∧ z.core = t ∧ ∀ px py, z.disp.pixel px py = false)) ∧
  ∀ (b : Config.Boot) (image : List Byte) (s : State),
    (3584 < image.length → State.load b image s = none) ∧
    (image.length ≤ 3584 → ∃ t, State.load b image s = some t ∧
      (∀ a, a < 80 → t.readByte a = b.font.toList.getD a 0) ∧
      (∀ a, 80 ≤ a → a < 0x200 → t.readByte a = 0) ∧
      (∀ i, i < image.length → t.readByte (0x200 + i) = image.getD i 0) ∧
      (∀ a, 0x200 + image.length ≤ a → a ≤ 0xFFF → t.readByte a = 0) ∧
      (∀ x, t.getV x = 0) ∧ t.pc = b.resetPc ∧ t.I = 0 ∧ t.stack = [] ∧ t.dt = 0 ∧ t.st = 0 ∧
      (∀ k, t.keyDown k = false) ∧ t.latch = .idle ∧ t.dq = [] ∧ t.fault = none)

/-- Forcing 0x1FF to zero changes nothing: the memories are equal as data (R303, the spec's decision D20; log 20). -/
def Obligations.ForcingByte1FFChangesNothing : Prop :=
  ∀ (b : Config.Boot) (image : List Byte), image.length ≤ 3584 →
    loadMemory { b with force1FFZero := true } image = loadMemory { b with force1FFZero := false } image

/-- A jump to itself is a fixed point of any number of cycles (R142, R312; the convention is D28). -/
def Obligations.SelfJumpIsAFixedPoint : Prop :=
  ∀ (s : State) (n : Nat), s.fault = none → atSelfJump s = true → runCycles n s = .next s

/-! ### The invariant -/

/-- The invariant holds right after reset. -/
def Obligations.ResetStateMeetsTheInvariant : Prop := Inv State.reset

/-- Every step keeps the invariant: memory in canonical form, `pc` at most 0x10FE, return addresses at most 4096, the
depths kept, the queued commands as R214 says, and a key-wait at `pc` while the latch is not `Idle` (R24, R26, R31,
R214, R247). -/
def Obligations.EveryStepKeepsTheInvariant : Prop :=
  ∀ s t : State, Inv s → step s = .next t → Inv t

/-- Every schedule of the host's transactions keeps the invariant, whatever their order and number (R5, R7, R24, R247).
A `Reset` in it starts at a `pc` of at most 0x10FE, as the default does (log 4). -/
def Obligations.EveryScheduleKeepsTheInvariant : Prop :=
  ∀ (ts : List Transaction) (s t : State), (∀ tr ∈ ts, tr.startsBelow) → Inv s → runTransactions ts s = some t → Inv t
end

