-- ==== Sys2Proof/Laws/Decode.lean ====
section
/-! SUPPORT. The fields of a word and the words of the encoder as numbers, and what reading a field of an encoded word
gives. -/

namespace Sys2Proof

/-- Concatenation as a sum: the left part counts in units of the right part's width (R9). -/
theorem toNat_append_add {m n : Nat} (a : BitVec m) (b : BitVec n) : (a ++ b).toNat = a.toNat * 2 ^ n + b.toNat := by
  rw [BitVec.toNat_append, ← Nat.shiftLeft_add_eq_or_of_lt b.isLt, Nat.shiftLeft_eq]

@[simp] theorem toNat_regField (r : RegId) : (regField r).toNat = r.val := rfl

/-! ### Words as numbers -/

theorem toNat_wordNNN (op : Nibble) (nnn : Addr12) : (wordNNN op nnn).toNat = op.toNat * 4096 + nnn.toNat :=
  toNat_append_add op nnn

theorem toNat_wordXKK (op : Nibble) (x : RegId) (kk : Byte) :
    (wordXKK op x kk).toNat = op.toNat * 4096 + x.val * 256 + kk.toNat := by
  have h : (op ++ regField x ++ kk).toNat = op.toNat * 4096 + x.val * 256 + kk.toNat := by
    simp only [toNat_append_add, toNat_regField]; omega
  exact h

theorem toNat_wordXYN (op : Nibble) (x y : RegId) (n : Nibble) :
    (wordXYN op x y n).toNat = op.toNat * 4096 + x.val * 256 + y.val * 16 + n.toNat := by
  have h : (op ++ regField x ++ regField y ++ n).toNat = op.toNat * 4096 + x.val * 256 + y.val * 16 + n.toNat := by
    simp only [toNat_append_add, toNat_regField]; omega
  exact h

theorem toNat_wordOfBytes (hi lo : Byte) : (wordOfBytes hi lo).toNat = hi.toNat * 256 + lo.toNat :=
  toNat_append_add hi lo

/-! ### Fields as numbers (R91) -/

theorem toNat_fieldOp (w : Word16) : (fieldOp w).toNat = w.toNat / 4096 := by
  have := w.isLt
  simp only [fieldOp, BitVec.extractLsb'_toNat, Nat.shiftRight_eq_div_pow]; omega

theorem val_fieldX (w : Word16) : (fieldX w).val = w.toNat / 256 % 16 := by
  have h : (w.extractLsb' 8 4).toNat = w.toNat / 256 % 16 := by
    simp only [BitVec.extractLsb'_toNat, Nat.shiftRight_eq_div_pow]
  exact h

theorem val_fieldY (w : Word16) : (fieldY w).val = w.toNat / 16 % 16 := by
  have h : (w.extractLsb' 4 4).toNat = w.toNat / 16 % 16 := by
    simp only [BitVec.extractLsb'_toNat, Nat.shiftRight_eq_div_pow]
  exact h

theorem toNat_fieldN (w : Word16) : (fieldN w).toNat = w.toNat % 16 := by
  simp only [fieldN, BitVec.extractLsb'_toNat, Nat.shiftRight_eq_div_pow]; omega

theorem toNat_fieldKK (w : Word16) : (fieldKK w).toNat = w.toNat % 256 := by
  simp only [fieldKK, BitVec.extractLsb'_toNat, Nat.shiftRight_eq_div_pow]; omega

theorem toNat_fieldNNN (w : Word16) : (fieldNNN w).toNat = w.toNat % 4096 := by
  simp only [fieldNNN, BitVec.extractLsb'_toNat, Nat.shiftRight_eq_div_pow]; omega

theorem toNat_highByte (w : Word16) : (highByte w).toNat = w.toNat / 256 := by
  have := w.isLt
  simp only [highByte, BitVec.extractLsb'_toNat, Nat.shiftRight_eq_div_pow]; omega

theorem toNat_lowByte (w : Word16) : (lowByte w).toNat = w.toNat % 256 := by
  simp only [lowByte, BitVec.extractLsb'_toNat, Nat.shiftRight_eq_div_pow]; omega

/-- The two bytes of a word, in address order, make the word again (R63). -/
@[simp] theorem wordOfBytes_high_low (w : Word16) : wordOfBytes (highByte w) (lowByte w) = w := by
  apply BitVec.eq_of_toNat_eq
  rw [toNat_wordOfBytes, toNat_highByte, toNat_lowByte]; omega

/-! ### Fields of encoded words -/

@[simp] theorem fieldOp_wordNNN (op : Nibble) (nnn : Addr12) : fieldOp (wordNNN op nnn) = op := by
  apply BitVec.eq_of_toNat_eq; rw [toNat_fieldOp, toNat_wordNNN]; omega

@[simp] theorem fieldNNN_wordNNN (op : Nibble) (nnn : Addr12) : fieldNNN (wordNNN op nnn) = nnn := by
  apply BitVec.eq_of_toNat_eq; rw [toNat_fieldNNN, toNat_wordNNN]; omega

@[simp] theorem fieldOp_wordXKK (op : Nibble) (x : RegId) (kk : Byte) : fieldOp (wordXKK op x kk) = op := by
  apply BitVec.eq_of_toNat_eq; rw [toNat_fieldOp, toNat_wordXKK]; omega

@[simp] theorem fieldX_wordXKK (op : Nibble) (x : RegId) (kk : Byte) : fieldX (wordXKK op x kk) = x := by
  apply Fin.ext; rw [val_fieldX, toNat_wordXKK]; omega

@[simp] theorem fieldKK_wordXKK (op : Nibble) (x : RegId) (kk : Byte) : fieldKK (wordXKK op x kk) = kk := by
  apply BitVec.eq_of_toNat_eq; rw [toNat_fieldKK, toNat_wordXKK]; omega

@[simp] theorem fieldOp_wordXYN (op : Nibble) (x y : RegId) (n : Nibble) : fieldOp (wordXYN op x y n) = op := by
  apply BitVec.eq_of_toNat_eq; rw [toNat_fieldOp, toNat_wordXYN]; omega

@[simp] theorem fieldX_wordXYN (op : Nibble) (x y : RegId) (n : Nibble) : fieldX (wordXYN op x y n) = x := by
  apply Fin.ext; rw [val_fieldX, toNat_wordXYN]; omega

@[simp] theorem fieldY_wordXYN (op : Nibble) (x y : RegId) (n : Nibble) : fieldY (wordXYN op x y n) = y := by
  apply Fin.ext; rw [val_fieldY, toNat_wordXYN]; omega

@[simp] theorem fieldN_wordXYN (op : Nibble) (x y : RegId) (n : Nibble) : fieldN (wordXYN op x y n) = n := by
  apply BitVec.eq_of_toNat_eq; rw [toNat_fieldN, toNat_wordXYN]; omega

/-! ### A word is its fields -/

theorem wordNNN_fields (w : Word16) : wordNNN (fieldOp w) (fieldNNN w) = w := by
  apply BitVec.eq_of_toNat_eq
  rw [toNat_wordNNN, toNat_fieldOp, toNat_fieldNNN]; omega

theorem wordXKK_fields (w : Word16) : wordXKK (fieldOp w) (fieldX w) (fieldKK w) = w := by
  apply BitVec.eq_of_toNat_eq
  rw [toNat_wordXKK, toNat_fieldOp, val_fieldX, toNat_fieldKK]; omega

theorem wordXYN_fields (w : Word16) : wordXYN (fieldOp w) (fieldX w) (fieldY w) (fieldN w) = w := by
  apply BitVec.eq_of_toNat_eq
  rw [toNat_wordXYN, toNat_fieldOp, val_fieldX, val_fieldY, toNat_fieldN]; omega

/-! ### The masks of the opcode table (R99) -/

theorem getLsbD_wordXYN (op : Nibble) (x y : RegId) (n : Nibble) (i : Nat) :
    (wordXYN op x y n).getLsbD i =
      if i < 4 then n.getLsbD i
      else if i - 4 < 4 then (regField y).getLsbD (i - 4)
      else if i - 4 - 4 < 4 then (regField x).getLsbD (i - 4 - 4)
      else op.getLsbD (i - 4 - 4 - 4) := by
  show (op ++ regField x ++ regField y ++ n).getLsbD i = _
  simp only [BitVec.getLsbD_append]

theorem getLsbD_wordXKK (op : Nibble) (x : RegId) (kk : Byte) (i : Nat) :
    (wordXKK op x kk).getLsbD i =
      if i < 8 then kk.getLsbD i
      else if i - 8 < 4 then (regField x).getLsbD (i - 8)
      else op.getLsbD (i - 8 - 4) := by
  show (op ++ regField x ++ kk).getLsbD i = _
  simp only [BitVec.getLsbD_append]

theorem and_mask_op (w : Word16) : w &&& 0xF000 = wordXYN (fieldOp w) 0 0 0 := by
  apply BitVec.eq_of_getLsbD_eq
  intro i hi
  rw [getLsbD_wordXYN, BitVec.getLsbD_and]
  interval_cases i <;> simp [fieldOp, regField]

theorem and_mask_op_n (w : Word16) : w &&& 0xF00F = wordXYN (fieldOp w) 0 0 (fieldN w) := by
  apply BitVec.eq_of_getLsbD_eq
  intro i hi
  rw [getLsbD_wordXYN, BitVec.getLsbD_and]
  interval_cases i <;> simp [fieldOp, fieldN, regField]

theorem and_mask_op_kk (w : Word16) : w &&& 0xF0FF = wordXKK (fieldOp w) 0 (fieldKK w) := by
  apply BitVec.eq_of_getLsbD_eq
  intro i hi
  rw [getLsbD_wordXKK, BitVec.getLsbD_and]
  interval_cases i <;> simp [fieldOp, fieldKK, regField]

theorem and_mask_all (w : Word16) : w &&& 0xFFFF = w := BitVec.and_allOnes

end Sys2Proof
end

