-- ==== Sys2Proof/Laws/Memory.lean ====
section
/-! SUPPORT. Memory: a read after a write, and the canonical form that every operation keeps and that makes equal
memories equal lists. -/

namespace Sys2Proof.Machine.Memory

/-! ### lookup, insert, erase -/

theorem lookup_insert (m : Memory) (a c : Nat) (v : Byte) :
    lookup (insert m a v) c = if c = a then some v else lookup m c := by
  induction m with
  | nil => simp [insert, lookup]
  | cons p m ih =>
    obtain ⟨b, w⟩ := p
    by_cases hab : a < b
    · simp [insert, hab, lookup]
    · by_cases hb : a = b
      · subst hb
        by_cases hc : c = a <;> simp [insert, lookup, hc]
      · by_cases hc : c = b
        · subst hc
          simp [insert, hab, hb, lookup, Ne.symm hb]
        · simp [insert, hab, hb, lookup, hc, ih]

/-- A list whose addresses are all at least `lo` holds nothing below `lo`. -/
theorem lookup_below {lo : Nat} {m : Memory} (h : wfFrom lo m = true) {c : Nat} (hc : c < lo) : lookup m c = none := by
  induction m generalizing lo with
  | nil => rfl
  | cons p m ih =>
    obtain ⟨b, w⟩ := p
    simp only [wfFrom, Bool.and_eq_true, decide_eq_true_eq] at h
    have hb : c ≠ b := by omega
    simp [lookup, hb, ih h.2 (by omega)]

theorem lookup_erase {lo : Nat} {m : Memory} (h : wfFrom lo m = true) (a c : Nat) :
    lookup (erase m a) c = if c = a then none else lookup m c := by
  induction m generalizing lo with
  | nil => simp [erase, lookup]
  | cons p m ih =>
    obtain ⟨b, w⟩ := p
    simp only [wfFrom, Bool.and_eq_true, decide_eq_true_eq] at h
    by_cases hb : a = b
    · subst hb
      by_cases hc : c = a
      · subst hc; simp [erase, lookup_below h.2 (Nat.lt_succ_self c)]
      · simp [erase, lookup, hc]
    · by_cases hc : c = b
      · have : c ≠ a := by omega
        simp_all [erase, lookup]
      · simp [erase, hb, lookup, hc, ih h.2]

/-! ### The canonical form is kept -/

theorem wfFrom_insert {lo : Nat} {m : Memory} (h : wfFrom lo m = true) {a : Nat} {v : Byte} (hlo : lo ≤ a)
    (ha : a < Config.memSize) (hv : v ≠ initialByte a) : wfFrom lo (insert m a v) = true := by
  induction m generalizing lo with
  | nil => simp [insert, wfFrom, hlo, ha, hv]
  | cons p m ih =>
    obtain ⟨b, w⟩ := p
    simp only [wfFrom, Bool.and_eq_true, decide_eq_true_eq] at h
    by_cases hab : a < b
    · simp only [insert, hab, if_true, wfFrom, Bool.and_eq_true, decide_eq_true_eq]
      exact ⟨⟨⟨hlo, ha⟩, hv⟩, ⟨⟨hab, h.1.1.2⟩, h.1.2⟩, h.2⟩
    · by_cases hb : a = b
      · subst hb
        simp only [insert, Nat.lt_irrefl, if_false, if_true, wfFrom, Bool.and_eq_true, decide_eq_true_eq]
        exact ⟨⟨⟨hlo, ha⟩, hv⟩, h.2⟩
      · simp only [insert, hab, hb, if_false, wfFrom, Bool.and_eq_true, decide_eq_true_eq]
        exact ⟨h.1, ih h.2 (by omega)⟩

theorem wfFrom_mono {lo lo' : Nat} {m : Memory} (h : wfFrom lo m = true) (hle : lo' ≤ lo) : wfFrom lo' m = true := by
  cases m with
  | nil => rfl
  | cons p m =>
    simp only [wfFrom, Bool.and_eq_true, decide_eq_true_eq] at h ⊢
    exact ⟨⟨⟨by omega, h.1.1.2⟩, h.1.2⟩, h.2⟩

theorem wfFrom_erase {lo : Nat} {m : Memory} (h : wfFrom lo m = true) (a : Nat) : wfFrom lo (erase m a) = true := by
  induction m generalizing lo with
  | nil => rfl
  | cons p m ih =>
    obtain ⟨b, w⟩ := p
    simp only [wfFrom, Bool.and_eq_true, decide_eq_true_eq] at h
    by_cases hb : a = b
    · simp only [erase, hb, if_true]; exact wfFrom_mono h.2 (by omega)
    · simp only [erase, hb, if_false, wfFrom, Bool.and_eq_true, decide_eq_true_eq]
      exact ⟨h.1, ih h.2⟩

@[simp] theorem wf_nil : wf [] = true := rfl

/-- Writing a byte keeps the canonical form. -/
theorem wf_write {m : Memory} (h : wf m = true) (a : Nat) (v : Byte) : wf (write m a v) = true := by
  unfold write
  split
  · exact h
  · split
    · exact wfFrom_erase h a
    · exact wfFrom_insert h (Nat.zero_le _) (by omega) ‹_›

/-- Writing a run of bytes keeps the canonical form. -/
theorem wf_writeBytes {m : Memory} (h : wf m = true) (a : Nat) (bs : List Byte) : wf (writeBytes m a bs) = true := by
  induction bs generalizing m a with
  | nil => exact h
  | cons b bs ih => exact ih (wf_write h a b) (a + 1)

/-! ### A read after a write -/

/-- Everything a write does to reads: the byte written reads as the value, every other byte as before. -/
theorem read_write {m : Memory} (h : wf m = true) {a : Nat} (ha : a < Config.memSize) (v : Byte) (c : Nat) :
    read (write m a v) c = if c = a then v else read m c := by
  have hn : ¬ Config.memSize ≤ a := by omega
  by_cases hv : v = initialByte a
  · by_cases hc : c = a
    · subst hc; simp [read, write, hn, hv, lookup_erase h]
    · simp [read, write, hn, hv, lookup_erase h, hc]
  · by_cases hc : c = a
    · subst hc; simp [read, write, hn, hv, lookup_insert]
    · simp [read, write, hn, hv, lookup_insert, hc]

theorem lookup_erase_other (m : Memory) {a c : Nat} (hc : c ≠ a) : lookup (erase m a) c = lookup m c := by
  induction m with
  | nil => rfl
  | cons p m ih =>
    obtain ⟨b, w⟩ := p
    by_cases hb : a = b
    · subst hb; simp [erase, lookup, hc]
    · by_cases hcb : c = b <;> simp [erase, hb, lookup, hcb, ih]

/-- A write leaves every other byte alone, in any memory, canonical or not. -/
theorem read_write_other (m : Memory) {a c : Nat} (v : Byte) (hc : c ≠ a) : read (write m a v) c = read m c := by
  unfold write
  split
  · rfl
  · split
    · simp [read, lookup_erase_other m hc]
    · simp [read, lookup_insert, hc]

/-- A run of writes leaves every byte outside it alone, in any memory, canonical or not. -/
theorem read_writeBytes_other (m : Memory) {a c : Nat} {bs : List Byte} (hc : c < a ∨ a + bs.length ≤ c) :
    read (writeBytes m a bs) c = read m c := by
  induction bs generalizing m a with
  | nil => rfl
  | cons b bs ih =>
    simp only [List.length_cons] at hc
    rw [writeBytes, ih _ (by omega), read_write_other _ _ (by omega)]

/-- Everything a run of writes does to reads. -/
theorem read_writeBytes {m : Memory} (h : wf m = true) {a : Nat} {bs : List Byte} (ha : a + bs.length ≤ Config.memSize)
    (c : Nat) : read (writeBytes m a bs) c = if a ≤ c ∧ c < a + bs.length then bs.getD (c - a) 0 else read m c := by
  induction bs generalizing m a with
  | nil =>
    have : ¬ (a ≤ c ∧ c < a + ([] : List Byte).length) := by simp
    rw [if_neg this]; rfl
  | cons b bs ih =>
    simp only [List.length_cons] at ha
    have e := ih (wf_write h a b) (a := a + 1) (by omega)
    simp only [writeBytes, e, read_write h (show a < Config.memSize by omega), List.length_cons]
    by_cases h1 : c = a
    · subst h1
      rw [if_neg (by omega), if_pos (by omega)]; simp
    · by_cases h2 : a ≤ c ∧ c < a + (bs.length + 1)
      · rw [if_pos (by omega), if_pos h2]
        obtain ⟨d, rfl⟩ : ∃ d, c = a + 1 + d := ⟨c - (a + 1), by omega⟩
        have e1 : a + 1 + d - (a + 1) = d := by omega
        have e2 : a + 1 + d - a = d + 1 := by omega
        rw [e1, e2]; simp
      · rw [if_neg (by omega), if_neg h2, if_neg h1]

@[simp] theorem length_readBytes (m : Memory) (a n : Nat) : (readBytes m a n).length = n := by simp [readBytes]

theorem getElem_readBytes (m : Memory) (a n i : Nat) (h : i < (readBytes m a n).length) :
    (readBytes m a n)[i] = read m (a + i) := by
  simp [readBytes]

theorem getD_readBytes (m : Memory) (a n i : Nat) (d : Byte) :
    (readBytes m a n).getD i d = if i < n then read m (a + i) else d := by
  by_cases h : i < n
  · rw [List.getD_eq_getElem _ _ (by simpa using h), getElem_readBytes, if_pos h]
  · rw [List.getD_eq_default _ _ (by simpa using h), if_neg h]

/-! ### Equal memories are equal lists -/

theorem lookup_ne_initialByte {lo : Nat} {m : Memory} (h : wfFrom lo m = true) {a : Nat} {v : Byte}
    (hv : lookup m a = some v) : v ≠ initialByte a := by
  induction m generalizing lo with
  | nil => simp [lookup] at hv
  | cons p m ih =>
    obtain ⟨b, w⟩ := p
    simp only [wfFrom, Bool.and_eq_true, decide_eq_true_eq] at h
    by_cases hb : a = b
    · subst hb
      simp only [lookup, if_true, Option.some.injEq] at hv
      exact hv ▸ h.1.2
    · simp only [lookup, hb, if_false] at hv
      exact ih h.2 hv

theorem lookup_eq_of_read_eq {m m' : Memory} (h : wf m = true) (h' : wf m' = true) (a : Nat)
    (hr : read m a = read m' a) : lookup m a = lookup m' a := by
  cases e : lookup m a with
  | none =>
    cases e' : lookup m' a with
    | none => rfl
    | some v => simp [read, e, e'] at hr; exact absurd hr.symm (lookup_ne_initialByte h' e')
  | some v =>
    cases e' : lookup m' a with
    | none => simp [read, e, e'] at hr; exact absurd hr (lookup_ne_initialByte h e)
    | some w => simpa [read, e, e'] using hr

theorem eq_of_lookup_eq {lo : Nat} {m m' : Memory} (h : wfFrom lo m = true) (h' : wfFrom lo m' = true)
    (hl : ∀ a, lookup m a = lookup m' a) : m = m' := by
  induction m generalizing lo m' with
  | nil =>
    cases m' with
    | nil => rfl
    | cons p m' => simpa [lookup] using hl p.1
  | cons p m ih =>
    obtain ⟨a, v⟩ := p
    cases m' with
    | nil => simpa [lookup] using hl a
    | cons q m' =>
      obtain ⟨b, w⟩ := q
      simp only [wfFrom, Bool.and_eq_true, decide_eq_true_eq] at h h'
      have hab : a = b := by
        by_contra hne
        have ha := hl a
        have hb := hl b
        rcases Nat.lt_or_gt_of_ne hne with hlt | hlt
        · simp [lookup, hne, lookup_below h'.2 (show a < b + 1 by omega)] at ha
        · simp [lookup, Ne.symm hne, lookup_below h.2 (show b < a + 1 by omega)] at hb
      subst hab
      have hvw : v = w := by simpa [lookup] using hl a
      subst hvw
      rw [ih h.2 h'.2 (m' := m') fun c => ?_]
      by_cases hc : c = a
      · subst hc; rw [lookup_below h.2 (Nat.lt_succ_self c), lookup_below h'.2 (Nat.lt_succ_self c)]
      · simpa [lookup, hc] using hl c

/-- Two memories in canonical form that read alike are the same list. -/
theorem ext_of_read {m m' : Memory} (h : wf m = true) (h' : wf m' = true) (hr : ∀ a, read m a = read m' a) : m = m' :=
  eq_of_lookup_eq h h' fun a => lookup_eq_of_read_eq h h' a (hr a)

end Sys2Proof.Machine.Memory
end

