-- ==== Sys2Proof/Laws/State.lean ====
section
/-! SUPPORT. One lemma per field per update of State, so that no later proof unfolds a record update. -/

namespace Sys2Proof.Machine

variable (s : State) (x : RegId) (v w : Byte) (b : Bool) (a : Word16)

/-! ### advance -/

@[simp] theorem advance_pc : s.advance.pc = s.pc + 2 := rfl
@[simp] theorem advance_V : s.advance.V = s.V := rfl
@[simp] theorem advance_mem : s.advance.mem = s.mem := rfl
@[simp] theorem advance_I : s.advance.I = s.I := rfl
@[simp] theorem advance_stack : s.advance.stack = s.stack := rfl
@[simp] theorem advance_dt : s.advance.dt = s.dt := rfl
@[simp] theorem advance_st : s.advance.st = s.st := rfl
@[simp] theorem advance_keys : s.advance.keys = s.keys := rfl
@[simp] theorem advance_latch : s.advance.latch = s.latch := rfl
@[simp] theorem advance_dq : s.advance.dq = s.dq := rfl
@[simp] theorem advance_fault : s.advance.fault = s.fault := rfl
@[simp] theorem advance_limits : s.advance.limits = s.limits := rfl
@[simp] theorem advance_draws : s.advance.draws = s.draws := rfl

/-! ### setV -/

@[simp] theorem setV_pc : (s.setV x v).pc = s.pc := rfl
@[simp] theorem setV_mem : (s.setV x v).mem = s.mem := rfl
@[simp] theorem setV_I : (s.setV x v).I = s.I := rfl
@[simp] theorem setV_stack : (s.setV x v).stack = s.stack := rfl
@[simp] theorem setV_dt : (s.setV x v).dt = s.dt := rfl
@[simp] theorem setV_st : (s.setV x v).st = s.st := rfl
@[simp] theorem setV_keys : (s.setV x v).keys = s.keys := rfl
@[simp] theorem setV_latch : (s.setV x v).latch = s.latch := rfl
@[simp] theorem setV_dq : (s.setV x v).dq = s.dq := rfl
@[simp] theorem setV_fault : (s.setV x v).fault = s.fault := rfl
@[simp] theorem setV_limits : (s.setV x v).limits = s.limits := rfl
@[simp] theorem setV_draws : (s.setV x v).draws = s.draws := rfl

/-! ### setWithFlag -/

@[simp] theorem setWithFlag_pc : (s.setWithFlag x v w).pc = s.pc := rfl
@[simp] theorem setWithFlag_mem : (s.setWithFlag x v w).mem = s.mem := rfl
@[simp] theorem setWithFlag_I : (s.setWithFlag x v w).I = s.I := rfl
@[simp] theorem setWithFlag_stack : (s.setWithFlag x v w).stack = s.stack := rfl
@[simp] theorem setWithFlag_dt : (s.setWithFlag x v w).dt = s.dt := rfl
@[simp] theorem setWithFlag_st : (s.setWithFlag x v w).st = s.st := rfl
@[simp] theorem setWithFlag_keys : (s.setWithFlag x v w).keys = s.keys := rfl
@[simp] theorem setWithFlag_latch : (s.setWithFlag x v w).latch = s.latch := rfl
@[simp] theorem setWithFlag_dq : (s.setWithFlag x v w).dq = s.dq := rfl
@[simp] theorem setWithFlag_fault : (s.setWithFlag x v w).fault = s.fault := rfl
@[simp] theorem setWithFlag_limits : (s.setWithFlag x v w).limits = s.limits := rfl
@[simp] theorem setWithFlag_draws : (s.setWithFlag x v w).draws = s.draws := rfl

/-! ### jumpTo, rollBack -/

@[simp] theorem jumpTo_pc : (s.jumpTo a).pc = a := rfl
@[simp] theorem jumpTo_V : (s.jumpTo a).V = s.V := rfl
@[simp] theorem jumpTo_mem : (s.jumpTo a).mem = s.mem := rfl
@[simp] theorem jumpTo_I : (s.jumpTo a).I = s.I := rfl
@[simp] theorem jumpTo_stack : (s.jumpTo a).stack = s.stack := rfl
@[simp] theorem jumpTo_dt : (s.jumpTo a).dt = s.dt := rfl
@[simp] theorem jumpTo_st : (s.jumpTo a).st = s.st := rfl
@[simp] theorem jumpTo_keys : (s.jumpTo a).keys = s.keys := rfl
@[simp] theorem jumpTo_latch : (s.jumpTo a).latch = s.latch := rfl
@[simp] theorem jumpTo_dq : (s.jumpTo a).dq = s.dq := rfl
@[simp] theorem jumpTo_fault : (s.jumpTo a).fault = s.fault := rfl
@[simp] theorem jumpTo_limits : (s.jumpTo a).limits = s.limits := rfl
@[simp] theorem jumpTo_draws : (s.jumpTo a).draws = s.draws := rfl

/-- Rolling back an advance gives the state before it: the roll-back form of the key-wait changes nothing (R246). -/
@[simp] theorem rollBack_advance : s.advance.rollBack = s := by
  simp [State.rollBack, State.advance]

@[simp] theorem rollBack_pc : s.rollBack.pc = s.pc - 2 := rfl
@[simp] theorem rollBack_latch : s.rollBack.latch = s.latch := rfl

/-! ### skipIf: a skip changes `pc` only -/

theorem skipIf_eq : s.skipIf b = { s with pc := if b then s.pc + 2 else s.pc } := by
  cases b <;> rfl

@[simp] theorem skipIf_pc : (s.skipIf b).pc = if b then s.pc + 2 else s.pc := by cases b <;> rfl
@[simp] theorem skipIf_V : (s.skipIf b).V = s.V := by cases b <;> rfl
@[simp] theorem skipIf_mem : (s.skipIf b).mem = s.mem := by cases b <;> rfl
@[simp] theorem skipIf_I : (s.skipIf b).I = s.I := by cases b <;> rfl
@[simp] theorem skipIf_stack : (s.skipIf b).stack = s.stack := by cases b <;> rfl
@[simp] theorem skipIf_dt : (s.skipIf b).dt = s.dt := by cases b <;> rfl
@[simp] theorem skipIf_st : (s.skipIf b).st = s.st := by cases b <;> rfl
@[simp] theorem skipIf_keys : (s.skipIf b).keys = s.keys := by cases b <;> rfl
@[simp] theorem skipIf_latch : (s.skipIf b).latch = s.latch := by cases b <;> rfl
@[simp] theorem skipIf_dq : (s.skipIf b).dq = s.dq := by cases b <;> rfl
@[simp] theorem skipIf_fault : (s.skipIf b).fault = s.fault := by cases b <;> rfl
@[simp] theorem skipIf_limits : (s.skipIf b).limits = s.limits := by cases b <;> rfl
@[simp] theorem skipIf_draws : (s.skipIf b).draws = s.draws := by cases b <;> rfl

/-! ### setBlock, advanceI -/

variable (bs : List Byte)

@[simp] theorem setBlock_pc : (s.setBlock bs).pc = s.pc := by simp only [State.setBlock]
@[simp] theorem setBlock_mem : (s.setBlock bs).mem = s.mem := by simp only [State.setBlock]
@[simp] theorem setBlock_I : (s.setBlock bs).I = s.I := by simp only [State.setBlock]
@[simp] theorem setBlock_stack : (s.setBlock bs).stack = s.stack := by simp only [State.setBlock]
@[simp] theorem setBlock_dt : (s.setBlock bs).dt = s.dt := by simp only [State.setBlock]
@[simp] theorem setBlock_st : (s.setBlock bs).st = s.st := by simp only [State.setBlock]
@[simp] theorem setBlock_keys : (s.setBlock bs).keys = s.keys := by simp only [State.setBlock]
@[simp] theorem setBlock_latch : (s.setBlock bs).latch = s.latch := by simp only [State.setBlock]
@[simp] theorem setBlock_dq : (s.setBlock bs).dq = s.dq := by simp only [State.setBlock]
@[simp] theorem setBlock_fault : (s.setBlock bs).fault = s.fault := by simp only [State.setBlock]
@[simp] theorem setBlock_limits : (s.setBlock bs).limits = s.limits := by simp only [State.setBlock]
@[simp] theorem setBlock_draws : (s.setBlock bs).draws = s.draws := by simp only [State.setBlock]

@[simp] theorem advanceI_I : (s.advanceI x).I = s.I + BitVec.ofNat 16 (x.val + 1) := rfl
@[simp] theorem advanceI_pc : (s.advanceI x).pc = s.pc := rfl
@[simp] theorem advanceI_V : (s.advanceI x).V = s.V := rfl
@[simp] theorem advanceI_mem : (s.advanceI x).mem = s.mem := rfl
@[simp] theorem advanceI_stack : (s.advanceI x).stack = s.stack := rfl
@[simp] theorem advanceI_dt : (s.advanceI x).dt = s.dt := rfl
@[simp] theorem advanceI_st : (s.advanceI x).st = s.st := rfl
@[simp] theorem advanceI_keys : (s.advanceI x).keys = s.keys := rfl
@[simp] theorem advanceI_latch : (s.advanceI x).latch = s.latch := rfl
@[simp] theorem advanceI_dq : (s.advanceI x).dq = s.dq := rfl
@[simp] theorem advanceI_fault : (s.advanceI x).fault = s.fault := rfl
@[simp] theorem advanceI_limits : (s.advanceI x).limits = s.limits := rfl
@[simp] theorem advanceI_draws : (s.advanceI x).draws = s.draws := rfl

/-! ### Reading registers, memory bytes and keys -/

/-- A register reads as the value field says: equal fields, equal reads. -/
theorem getV_of_V_eq {s t : State} (h : t.V = s.V) (r : RegId) : t.getV r = s.getV r := by
  simp [State.getV, h]

theorem readByte_of_mem_eq {s t : State} (h : t.mem = s.mem) (n : Nat) : t.readByte n = s.readByte n := by
  simp [State.readByte, h]

@[simp] theorem advance_getV (r : RegId) : s.advance.getV r = s.getV r := rfl
@[simp] theorem jumpTo_getV (r : RegId) : (s.jumpTo a).getV r = s.getV r := rfl
@[simp] theorem advanceI_getV (r : RegId) : (s.advanceI x).getV r = s.getV r := rfl
@[simp] theorem skipIf_getV (r : RegId) : (s.skipIf b).getV r = s.getV r := by cases b <;> rfl

theorem getV_setV (r : RegId) : (s.setV x v).getV r = if x = r then v else s.getV r := by
  simp [State.setV, State.getV, Vector.getElem_set, Fin.ext_iff]

@[simp] theorem getV_setV_same : (s.setV x v).getV x = v := by simp [getV_setV]

theorem getV_setV_other {x r : RegId} (h : r ≠ x) : (s.setV x v).getV r = s.getV r := by
  simp [getV_setV, h.symm]

@[simp] theorem getV_setBlock (r : RegId) : (s.setBlock bs).getV r = bs.getD r (s.getV r) := by
  simp [State.setBlock, State.getV]

@[simp] theorem readByte_setV (n : Nat) : (s.setV x v).readByte n = s.readByte n := rfl
@[simp] theorem readByte_advance (n : Nat) : s.advance.readByte n = s.readByte n := rfl
@[simp] theorem readByte_setWithFlag (n : Nat) : (s.setWithFlag x v w).readByte n = s.readByte n := rfl
@[simp] theorem readByte_jumpTo (n : Nat) : (s.jumpTo a).readByte n = s.readByte n := rfl
@[simp] theorem readByte_skipIf (n : Nat) : (s.skipIf b).readByte n = s.readByte n :=
  readByte_of_mem_eq (skipIf_mem s b) n
@[simp] theorem readByte_setBlock (n : Nat) : (s.setBlock bs).readByte n = s.readByte n :=
  readByte_of_mem_eq (setBlock_mem s bs) n
@[simp] theorem readByte_advanceI (n : Nat) : (s.advanceI x).readByte n = s.readByte n := rfl

/-! ### The transactions -/

@[simp] theorem timerTick_dt : (timerTick s).dt = decrement s.dt := rfl
@[simp] theorem timerTick_st : (timerTick s).st = decrement s.st := rfl
@[simp] theorem timerTick_mem : (timerTick s).mem = s.mem := rfl
@[simp] theorem timerTick_V : (timerTick s).V = s.V := rfl
@[simp] theorem timerTick_pc : (timerTick s).pc = s.pc := rfl
@[simp] theorem timerTick_I : (timerTick s).I = s.I := rfl
@[simp] theorem timerTick_stack : (timerTick s).stack = s.stack := rfl
@[simp] theorem timerTick_keys : (timerTick s).keys = s.keys := rfl
@[simp] theorem timerTick_latch : (timerTick s).latch = s.latch := rfl
@[simp] theorem timerTick_dq : (timerTick s).dq = s.dq := rfl
@[simp] theorem timerTick_fault : (timerTick s).fault = s.fault := rfl
@[simp] theorem timerTick_limits : (timerTick s).limits = s.limits := rfl
@[simp] theorem timerTick_draws : (timerTick s).draws = s.draws := rfl

variable (k : Key)

@[simp] theorem keyEvent_latch : (keyEvent k b s).latch = latchNext s.latch k b := rfl
@[simp] theorem keyEvent_keys : (keyEvent k b s).keys = s.keys.set k b := rfl
@[simp] theorem keyEvent_mem : (keyEvent k b s).mem = s.mem := rfl
@[simp] theorem keyEvent_V : (keyEvent k b s).V = s.V := rfl
@[simp] theorem keyEvent_pc : (keyEvent k b s).pc = s.pc := rfl
@[simp] theorem keyEvent_I : (keyEvent k b s).I = s.I := rfl
@[simp] theorem keyEvent_stack : (keyEvent k b s).stack = s.stack := rfl
@[simp] theorem keyEvent_dt : (keyEvent k b s).dt = s.dt := rfl
@[simp] theorem keyEvent_st : (keyEvent k b s).st = s.st := rfl
@[simp] theorem keyEvent_dq : (keyEvent k b s).dq = s.dq := rfl
@[simp] theorem keyEvent_fault : (keyEvent k b s).fault = s.fault := rfl
@[simp] theorem keyEvent_limits : (keyEvent k b s).limits = s.limits := rfl
@[simp] theorem keyEvent_draws : (keyEvent k b s).draws = s.draws := rfl

theorem keyDown_keyEvent (j : Key) : (keyEvent k b s).keyDown j = if k = j then b else s.keyDown j := by
  simp [State.keyDown, keyEvent, Vector.getElem_set, Fin.ext_iff]

end Sys2Proof.Machine
end

