-- ==== Sys2Proof/Laws/Ops.lean ====
section
/-! SUPPORT. One lemma per shared operation that says everything it can do; the provers cite these instead of unfolding
the operations. -/

namespace Sys2Proof.Machine

/-! ### Taking a fault -/

/-- Raising a fault always answers a next state: the old one with the cause recorded. -/
theorem raiseFatal_eq (c : Fault) (s : State) : raiseFatal c s = .next { s with fault := some c } := rfl

@[simp] theorem orFatal_some (s t : State) (c : Fault) : orFatal s c (some t) = .next t := rfl

@[simp] theorem orFatal_none (s : State) (c : Fault) : orFatal s c none = .next { s with fault := some c } := rfl

/-- Everything the end of a faultable instruction can do. -/
theorem orFatal_cases {s t : State} {c : Fault} {o : Option State} (h : orFatal s c o = .next t) :
    o = some t ∨ (o = none ∧ t = { s with fault := some c }) := by
  cases o with
  | some u =>
    simp only [orFatal_some, Host.Outcome.next.injEq] at h
    exact .inl (by rw [h])
  | none =>
    simp only [orFatal_none, Host.Outcome.next.injEq] at h
    exact .inr ⟨rfl, h.symm⟩

theorem orFatal_total (s : State) (c : Fault) (o : Option State) : ∃ t, orFatal s c o = .next t := by
  cases o <;> exact ⟨_, rfl⟩

/-! ### Operands as numbers -/

@[simp] theorem toNat_zext16Addr (nnn : Addr12) : (zext16Addr nnn).toNat = nnn.toNat := by
  simp [zext16Addr, BitVec.toNat_setWidth]; omega

@[simp] theorem toNat_zext16Byte (v : Byte) : (zext16Byte v).toNat = v.toNat := by
  simp [zext16Byte, BitVec.toNat_setWidth]; omega

/-- The target of `JP V0, nnn` is the plain sum: it fits 16 bits (R152). -/
theorem toNat_indexedTarget (s : State) (nnn : Addr12) :
    (indexedTarget s nnn).toNat = nnn.toNat + (s.getV 0).toNat := by
  simp only [indexedTarget, BitVec.toNat_add, toNat_zext16Addr, toNat_zext16Byte]; omega

/-- A glyph address fits 16 bits (R194). -/
theorem toNat_glyphAddress (v : Byte) : (glyphAddress v).toNat = 5 * v.toNat := by
  simp only [glyphAddress, BitVec.toNat_ofNat]; omega

theorem val_keyOf (v : Byte) : (keyOf v).val = v.toNat % 16 := by
  have h : (v.extractLsb' 0 4).toNat = v.toNat % 16 := by
    simp only [BitVec.extractLsb'_toNat, Nat.shiftRight_eq_div_pow]; omega
  exact h

theorem toNat_keyByte (k : Key) : (keyByte k).toNat = k.val := by
  simp only [keyByte, BitVec.toNat_ofNat]; omega

theorem val_originX (v : Byte) : (originX v).val = v.toNat % 64 := rfl

theorem val_originY (v : Byte) : (originY v).val = v.toNat % 32 := rfl

@[simp] theorem length_bcdDigits (v : Byte) : (bcdDigits v).length = 3 := rfl

@[simp] theorem length_getBlock (s : State) (x : RegId) : (s.getBlock x).length = x.val + 1 := by
  simp [State.getBlock, blockCount]

/-- The `i`-th value of a block is `V[i]` (R198). -/
theorem getD_getBlock (s : State) (x : RegId) (i : Nat) (hi : i < 16) (hx : i ≤ x.val) (d : Byte) :
    (s.getBlock x).getD i d = s.getV ⟨i, hi⟩ := by
  have h : i < (s.getBlock x).length := by rw [length_getBlock]; omega
  rw [List.getD_eq_getElem _ _ h]
  simp [State.getBlock, State.getV]

/-! ### Registers with a flag -/

/-- Everything a result with a flag leaves in the registers: the flag in `V[0xF]`, the result in `V[x]` when that is
another register, the rest as before (R157). -/
theorem getV_setWithFlag (s : State) (x : RegId) (v f : Byte) (r : RegId) :
    (s.setWithFlag x v f).getV r = if r = VF then f else if r = x then v else s.getV r := by
  simp only [State.setWithFlag, getV_setV]
  by_cases h1 : r = VF
  · simp [h1]
  · by_cases h2 : r = x
    · subst h2; simp [h1, Ne.symm h1]
    · simp [h1, h2, Ne.symm h1, Ne.symm h2]

/-! ### Fetch and data accesses -/

/-- The fetch gives a word exactly when both its bytes lie in memory (R121). -/
theorem fetch16_eq_some {s : State} {w : Word16} :
    fetch16 s = some w ↔
      s.pc.toNat ≤ 4094 ∧ wordOfBytes (s.readByte s.pc.toNat) (s.readByte (s.pc.toNat + 1)) = w := by
  unfold fetch16
  split
  · simp only [reduceCtorEq, false_iff]; omega
  · simp only [Option.some.injEq]
    exact ⟨fun h => ⟨by omega, h⟩, fun h => h.2⟩

theorem fetch16_eq_none {s : State} : fetch16 s = none ↔ 4095 ≤ s.pc.toNat := by
  unfold fetch16
  split
  · simp only [true_iff]; omega
  · simp only [reduceCtorEq, false_iff]; omega

/-- The fetch depends on `pc` and memory only. -/
theorem fetch16_congr {s t : State} (hp : t.pc = s.pc) (hm : t.mem = s.mem) : fetch16 t = fetch16 s := by
  simp only [fetch16, hp, readByte_of_mem_eq hm]

theorem inBounds_iff (addr n : Nat) : inBounds addr n = true ↔ n = 0 ∨ addr + n ≤ Config.memSize := by
  simp only [inBounds, Config.memSize, Bool.or_eq_true, decide_eq_true_eq]; omega

/-- A read in bounds gives the bytes, a read out of bounds nothing (R11). -/
theorem memRead_eq_some {s : State} {addr n : Nat} {bs : List Byte} :
    memRead s addr n = some bs ↔ (n = 0 ∨ addr + n ≤ Config.memSize) ∧ bs = Memory.readBytes s.mem addr n := by
  unfold memRead
  rw [← inBounds_iff]
  cases inBounds addr n <;> simp [eq_comm]

theorem inBounds_eq_false (addr n : Nat) : inBounds addr n = false ↔ n ≠ 0 ∧ Config.memSize < addr + n := by
  rw [← Bool.not_eq_true, inBounds_iff]; omega

theorem memRead_eq_none {s : State} {addr n : Nat} :
    memRead s addr n = none ↔ n ≠ 0 ∧ Config.memSize < addr + n := by
  unfold memRead
  rw [← inBounds_eq_false]
  cases inBounds addr n <;> simp

/-- A write in bounds stores the bytes and changes nothing else, a write out of bounds does nothing (R11). -/
theorem memWrite_eq_some {s t : State} {addr : Nat} {bs : List Byte} :
    memWrite s addr bs = some t ↔
      (bs.length = 0 ∨ addr + bs.length ≤ Config.memSize) ∧ t = { s with mem := Memory.writeBytes s.mem addr bs } := by
  unfold memWrite
  rw [← inBounds_iff]
  cases inBounds addr bs.length <;> simp [eq_comm]

theorem memWrite_eq_none {s : State} {addr : Nat} {bs : List Byte} :
    memWrite s addr bs = none ↔ bs.length ≠ 0 ∧ Config.memSize < addr + bs.length := by
  unfold memWrite
  rw [← inBounds_eq_false]
  cases inBounds addr bs.length <;> simp

/-! ### Stack and queue -/

theorem hasRoom_iff (depth : Option Nat) (len : Nat) : hasRoom depth len = true ↔ depth ≠ some len := by
  simp [hasRoom]

theorem hasRoom_eq_false (depth : Option Nat) (len : Nat) : hasRoom depth len = false ↔ depth = some len := by
  simp [hasRoom]

/-- A push onto a stack with room puts the value on top and changes nothing else; onto a full one it does nothing. -/
theorem pushStack_eq_some {s t : State} {v : Word16} :
    pushStack s v = some t ↔ s.limits.stackDepth ≠ some s.stack.length ∧ t = { s with stack := v :: s.stack } := by
  unfold pushStack
  rw [← hasRoom_iff]
  cases hasRoom s.limits.stackDepth s.stack.length <;> simp [eq_comm]

theorem pushStack_eq_none {s : State} {v : Word16} :
    pushStack s v = none ↔ s.limits.stackDepth = some s.stack.length := by
  unfold pushStack
  rw [← hasRoom_eq_false]
  cases hasRoom s.limits.stackDepth s.stack.length <;> simp

/-- A pop takes the top into `pc` and off the stack; an empty stack gives nothing. -/
theorem popToPc_eq_some {s t : State} :
    popToPc s = some t ↔ ∃ v rest, s.stack = v :: rest ∧ t = { s with pc := v, stack := rest } := by
  unfold popToPc
  split
  · next h => simp [h]
  · next v rest h => simp [h, eq_comm]

theorem popToPc_eq_none {s : State} : popToPc s = none ↔ s.stack = [] := by
  unfold popToPc
  split <;> simp_all

/-- A command goes to the back of a queue with room and nothing else changes; a full queue gives nothing. -/
theorem enqueue_eq_some {s t : State} {c : DrawCommand} :
    enqueue s c = some t ↔ s.limits.drawqDepth ≠ some s.dq.length ∧ t = { s with dq := s.dq ++ [c] } := by
  unfold enqueue
  rw [← hasRoom_iff]
  cases hasRoom s.limits.drawqDepth s.dq.length <;> simp [eq_comm]

theorem enqueue_eq_none {s : State} {c : DrawCommand} :
    enqueue s c = none ↔ s.limits.drawqDepth = some s.dq.length := by
  unfold enqueue
  rw [← hasRoom_eq_false]
  cases hasRoom s.limits.drawqDepth s.dq.length <;> simp

/-! ### The cycle -/

/-- A halted CORE ignores the cycle (R125). -/
theorem step_halted {s : State} {c : Fault} (h : s.fault = some c) : step s = .next s := by
  simp [step, instrCycle, h]

theorem step_fetch_none {s : State} (h : s.fault = none) (hf : fetch16 s = none) :
    step s = .next { s with fault := some .fetchOutOfBounds } := by
  simp [step, instrCycle, h, hf, raiseFatal]

/-- A running CORE executes the word it fetches (R120). -/
theorem step_fetch_some {s : State} {w : Word16} (h : s.fault = none) (hf : fetch16 s = some w) :
    step s = exec (decode w) s := by
  simp [step, instrCycle, h, hf]

/-! ### The display -/

/-- Everything the flip of a pixel does: that pixel is inverted, every other one is as before (R224). -/
theorem pixel_flip (d : Display) (px qx : Fin 64) (py qy : Fin 32) :
    (d.flip px py).pixel qx qy = if px = qx ∧ py = qy then !d.pixel qx qy else d.pixel qx qy := by
  simp only [Display.flip, Display.pixel, Fin.getElem_fin, Vector.getElem_set, Fin.ext_iff]
  by_cases h2 : py.val = qy.val
  · by_cases h1 : px.val = qx.val
    · simp [h1, h2]
    · simp [h1, h2]
  · simp [h2]

@[simp] theorem pixel_blank (px : Fin 64) (py : Fin 32) : Display.blank.pixel px py = false := by
  simp [Display.blank, Display.pixel]

/-- Two displays with the same pixels are the same. -/
theorem display_ext {d e : Display} (h : ∀ px py, d.pixel px py = e.pixel px py) : d = e := by
  apply Vector.ext
  intro i hi
  apply Vector.ext
  intro j hj
  exact h ⟨j, hj⟩ ⟨i, hi⟩

end Sys2Proof.Machine
end

