-- ==== Sys2Proof/Laws/Frames.lean ====
section
/-! SUPPORT. The frame of each shared ending of a meaning: what it leaves unchanged besides `pc`. -/

namespace Sys2Proof.Machine

theorem frame_advance (s : State) : Frame {} s s.advance := by constructor <;> simp

theorem frame_jumpTo (s : State) (a : Word16) : Frame {} s (s.advance.jumpTo a) := by constructor <;> simp

theorem frame_skipIf (s : State) (b : Bool) : Frame {} s (s.advance.skipIf b) := by constructor <;> simp

theorem frame_setV (s : State) (x : RegId) (v : Byte) : Frame { regs := [x] } s (s.advance.setV x v) := by
  constructor <;> simp_all [getV_setV_other]

theorem frame_setWithFlag (s : State) (x : RegId) (v f : Byte) :
    Frame { regs := [x, VF] } s (s.advance.setWithFlag x v f) := by
  constructor <;> simp_all [getV_setWithFlag]

/-- An address is in a range of bytes exactly when it lies between its ends. -/
theorem mem_byteRange {addr n a : Nat} : a ∈ byteRange addr n ↔ addr ≤ a ∧ a < addr + n := by
  simp only [byteRange, List.mem_map, List.mem_range]
  constructor
  · rintro ⟨i, hi, rfl⟩; omega
  · intro h; exact ⟨a - addr, by omega, by omega⟩

theorem mem_blockRegs {x r : RegId} : r ∈ blockRegs x ↔ r ≤ x := by simp [blockRegs]

/-- A run of writes leaves every byte outside the run alone. -/
theorem read_writeBytes_outside (m : Memory) (addr : Nat) (bs : List Byte) {a : Nat}
    (h : a ∉ byteRange addr bs.length) : Memory.read (Memory.writeBytes m addr bs) a = Memory.read m a :=
  Memory.read_writeBytes_other m (by rw [mem_byteRange] at h; omega)

end Sys2Proof.Machine
end

