-- ==== Sys2Proof/Laws/PerInstr.lean ====
section
/-! SUPPORT. Statements for all instructions, one lemma per constructor. Family `RowMatch`: the word of an instruction
matches the row of spec/opcode_table.json that the instruction stands for (R95, R99). -/

namespace Sys2Proof.Laws.RowMatch

/-- The word of the instruction matches its opcode-table row. -/
def Statement (i : Instr) : Prop := (opcodeRow i).matches (encode i) = true

theorem cls : Statement .cls := by unfold Statement; decide
theorem ret : Statement .ret := by unfold Statement; decide
theorem sys (nnn) : Statement (.sys nnn) := by
  simp only [Statement, opcodeRow, encode, OpcodeRow.matches, and_mask_op, fieldOp_wordNNN]; decide
theorem jp (nnn) : Statement (.jp nnn) := by
  simp only [Statement, opcodeRow, encode, OpcodeRow.matches, and_mask_op, fieldOp_wordNNN]; decide
theorem call (nnn) : Statement (.call nnn) := by
  simp only [Statement, opcodeRow, encode, OpcodeRow.matches, and_mask_op, fieldOp_wordNNN]; decide
theorem seImm (x kk) : Statement (.seImm x kk) := by
  simp only [Statement, opcodeRow, encode, OpcodeRow.matches, and_mask_op, fieldOp_wordXKK]; decide
theorem sneImm (x kk) : Statement (.sneImm x kk) := by
  simp only [Statement, opcodeRow, encode, OpcodeRow.matches, and_mask_op, fieldOp_wordXKK]; decide
theorem seReg (x y z) : Statement (.seReg x y z) := by
  simp only [Statement, opcodeRow, encode, OpcodeRow.matches, and_mask_op, fieldOp_wordXYN]; decide
theorem ldImm (x kk) : Statement (.ldImm x kk) := by
  simp only [Statement, opcodeRow, encode, OpcodeRow.matches, and_mask_op, fieldOp_wordXKK]; decide
theorem addImm (x kk) : Statement (.addImm x kk) := by
  simp only [Statement, opcodeRow, encode, OpcodeRow.matches, and_mask_op, fieldOp_wordXKK]; decide
theorem ldReg (x y) : Statement (.ldReg x y) := by
  simp only [Statement, opcodeRow, encode, OpcodeRow.matches, and_mask_op_n, fieldOp_wordXYN, fieldN_wordXYN]; decide
theorem orReg (x y) : Statement (.orReg x y) := by
  simp only [Statement, opcodeRow, encode, OpcodeRow.matches, and_mask_op_n, fieldOp_wordXYN, fieldN_wordXYN]; decide
theorem andReg (x y) : Statement (.andReg x y) := by
  simp only [Statement, opcodeRow, encode, OpcodeRow.matches, and_mask_op_n, fieldOp_wordXYN, fieldN_wordXYN]; decide
theorem xorReg (x y) : Statement (.xorReg x y) := by
  simp only [Statement, opcodeRow, encode, OpcodeRow.matches, and_mask_op_n, fieldOp_wordXYN, fieldN_wordXYN]; decide
theorem addReg (x y) : Statement (.addReg x y) := by
  simp only [Statement, opcodeRow, encode, OpcodeRow.matches, and_mask_op_n, fieldOp_wordXYN, fieldN_wordXYN]; decide
theorem subReg (x y) : Statement (.subReg x y) := by
  simp only [Statement, opcodeRow, encode, OpcodeRow.matches, and_mask_op_n, fieldOp_wordXYN, fieldN_wordXYN]; decide
theorem shrReg (x y) : Statement (.shrReg x y) := by
  simp only [Statement, opcodeRow, encode, OpcodeRow.matches, and_mask_op_n, fieldOp_wordXYN, fieldN_wordXYN]; decide
theorem subnReg (x y) : Statement (.subnReg x y) := by
  simp only [Statement, opcodeRow, encode, OpcodeRow.matches, and_mask_op_n, fieldOp_wordXYN, fieldN_wordXYN]; decide
theorem shlReg (x y) : Statement (.shlReg x y) := by
  simp only [Statement, opcodeRow, encode, OpcodeRow.matches, and_mask_op_n, fieldOp_wordXYN, fieldN_wordXYN]; decide
theorem sneReg (x y z) : Statement (.sneReg x y z) := by
  simp only [Statement, opcodeRow, encode, OpcodeRow.matches, and_mask_op, fieldOp_wordXYN]; decide
theorem ldI (nnn) : Statement (.ldI nnn) := by
  simp only [Statement, opcodeRow, encode, OpcodeRow.matches, and_mask_op, fieldOp_wordNNN]; decide
theorem jpV0 (nnn) : Statement (.jpV0 nnn) := by
  simp only [Statement, opcodeRow, encode, OpcodeRow.matches, and_mask_op, fieldOp_wordNNN]; decide
theorem rnd (x kk) : Statement (.rnd x kk) := by
  simp only [Statement, opcodeRow, encode, OpcodeRow.matches, and_mask_op, fieldOp_wordXKK]; decide
theorem drw (x y n) : Statement (.drw x y n) := by
  simp only [Statement, opcodeRow, encode, OpcodeRow.matches, and_mask_op, fieldOp_wordXYN]; decide
theorem skp (x) : Statement (.skp x) := by
  simp only [Statement, opcodeRow, encode, OpcodeRow.matches, and_mask_op_kk, fieldOp_wordXKK, fieldKK_wordXKK]; decide
theorem sknp (x) : Statement (.sknp x) := by
  simp only [Statement, opcodeRow, encode, OpcodeRow.matches, and_mask_op_kk, fieldOp_wordXKK, fieldKK_wordXKK]; decide
theorem ldVxDT (x) : Statement (.ldVxDT x) := by
  simp only [Statement, opcodeRow, encode, OpcodeRow.matches, and_mask_op_kk, fieldOp_wordXKK, fieldKK_wordXKK]; decide
theorem ldVxK (x) : Statement (.ldVxK x) := by
  simp only [Statement, opcodeRow, encode, OpcodeRow.matches, and_mask_op_kk, fieldOp_wordXKK, fieldKK_wordXKK]; decide
theorem ldDTVx (x) : Statement (.ldDTVx x) := by
  simp only [Statement, opcodeRow, encode, OpcodeRow.matches, and_mask_op_kk, fieldOp_wordXKK, fieldKK_wordXKK]; decide
theorem ldSTVx (x) : Statement (.ldSTVx x) := by
  simp only [Statement, opcodeRow, encode, OpcodeRow.matches, and_mask_op_kk, fieldOp_wordXKK, fieldKK_wordXKK]; decide
theorem addI (x) : Statement (.addI x) := by
  simp only [Statement, opcodeRow, encode, OpcodeRow.matches, and_mask_op_kk, fieldOp_wordXKK, fieldKK_wordXKK]; decide
theorem ldF (x) : Statement (.ldF x) := by
  simp only [Statement, opcodeRow, encode, OpcodeRow.matches, and_mask_op_kk, fieldOp_wordXKK, fieldKK_wordXKK]; decide
theorem ldB (x) : Statement (.ldB x) := by
  simp only [Statement, opcodeRow, encode, OpcodeRow.matches, and_mask_op_kk, fieldOp_wordXKK, fieldKK_wordXKK]; decide
theorem storeBlock (x) : Statement (.storeBlock x) := by
  simp only [Statement, opcodeRow, encode, OpcodeRow.matches, and_mask_op_kk, fieldOp_wordXKK, fieldKK_wordXKK]; decide
theorem loadBlock (x) : Statement (.loadBlock x) := by
  simp only [Statement, opcodeRow, encode, OpcodeRow.matches, and_mask_op_kk, fieldOp_wordXKK, fieldKK_wordXKK]; decide
theorem unrec8 (x y n) : Statement (.unrec8 x y n) := by
  simp only [Statement, opcodeRow, encode, OpcodeRow.matches, and_mask_op, fieldOp_wordXYN]; decide
theorem unrecE (x kk) : Statement (.unrecE x kk) := by
  simp only [Statement, opcodeRow, encode, OpcodeRow.matches, and_mask_op, fieldOp_wordXKK]; decide
theorem unrecF (x kk) : Statement (.unrecF x kk) := by
  simp only [Statement, opcodeRow, encode, OpcodeRow.matches, and_mask_op, fieldOp_wordXKK]; decide

end Sys2Proof.Laws.RowMatch
end

