-- ==== Sys2Proof/Laws/Renderer.lean ====
section
/-! SUPPORT. The pixels of a sprite, what plotting a list of distinct pixels does, and the queue across a renderer
step. -/

namespace Sys2Proof.Machine

/-- Everything plotting distinct pixels does: each is inverted once, the others keep, and the collision says whether
one of them was set before (R224). -/
theorem plot_foldl {ps : List (Fin 64 × Fin 32)} (hn : ps.Nodup) (d : Display) (b : Bool) :
    (∀ px py, (ps.foldl plot (d, b)).1.pixel px py = if (px, py) ∈ ps then !d.pixel px py else d.pixel px py) ∧
    ((ps.foldl plot (d, b)).2 = true ↔ b = true ∨ ∃ p ∈ ps, d.pixel p.1 p.2 = true) := by
  induction ps generalizing d b with
  | nil => simp
  | cons p ps ih =>
    obtain ⟨hp, hn⟩ := List.nodup_cons.mp hn
    obtain ⟨i1, i2⟩ := ih hn (d.flip p.1 p.2) (b || d.pixel p.1 p.2)
    have hne : ∀ q ∈ ps, ¬ (p.1 = q.1 ∧ p.2 = q.2) := fun q hq e => hp (Prod.ext e.1 e.2 ▸ hq)
    constructor
    · intro px py
      simp only [List.foldl_cons, plot, i1, pixel_flip, List.mem_cons]
      by_cases he : (px, py) = p
      · subst he; simp [hp]
      · have : ¬ (p.1 = px ∧ p.2 = py) := by rintro ⟨rfl, rfl⟩; exact he rfl
        simp [he, this]
    · simp only [List.foldl_cons, plot, i2, Bool.or_eq_true, List.mem_cons, pixel_flip]
      constructor
      · rintro ((h | h) | ⟨q, hq, h⟩)
        · exact .inl h
        · exact .inr ⟨p, .inl rfl, h⟩
        · rw [if_neg (hne q hq)] at h; exact .inr ⟨q, .inr hq, h⟩
      · rintro (h | ⟨q, rfl | hq, h⟩)
        · exact .inl (.inl h)
        · exact .inl (.inr h)
        · exact .inr ⟨q, hq, by rw [if_neg (hne q hq)]; exact h⟩

theorem mem_rowPixels {ox : Fin 64} {py : Nat} {row : Byte} {p : Fin 64 × Fin 32} :
    p ∈ rowPixels ox py row ↔ ∃ c, c < 8 ∧ row.getLsbD (7 - c) = true ∧ p.1.val = ox.val + c ∧ p.2.val = py := by
  simp only [rowPixels, List.mem_filterMap, List.mem_range]
  constructor
  · rintro ⟨c, hc, h⟩
    split at h
    · split at h
      · simp only [Option.some.injEq] at h; subst h; exact ⟨c, hc, ‹_›, rfl, rfl⟩
      · simp at h
    · simp at h
  · rintro ⟨c, hc, hr, h1, h2⟩
    refine ⟨c, hc, ?_⟩
    rw [if_pos hr, dif_pos ⟨by omega, by omega⟩]
    simp [Prod.ext_iff, Fin.ext_iff, h1, h2]

/-- The list of a sprite's pixels holds exactly those the sprite sets in the frame (R224, R225). -/
theorem mem_spritePixels {ox : Fin 64} {oy : Fin 32} {rows : List Byte} {px : Fin 64} {py : Fin 32} :
    (px, py) ∈ spritePixels ox oy rows ↔ spriteCovers ox oy rows px py := by
  simp only [spritePixels, List.mem_flatMap, mem_rowPixels, spriteCovers, Prod.exists]
  constructor
  · rintro ⟨row, r, hm, c, hc, hr, h1, h2⟩
    exact ⟨r, c, row, by simpa using List.mem_zipIdx_iff_getElem?.mp hm, hc, hr, h1, h2⟩
  · rintro ⟨r, c, row, hm, hc, hr, h1, h2⟩
    exact ⟨row, r, List.mem_zipIdx_iff_getElem?.mpr hm, c, hc, hr, h1, h2⟩

theorem nodup_rowPixels (ox : Fin 64) (py : Nat) (row : Byte) : (rowPixels ox py row).Nodup := by
  unfold rowPixels
  refine List.Nodup.filterMap ?_ List.nodup_range
  intro a b p ha hb
  simp only [Option.mem_def] at ha hb
  split at ha <;> split at hb <;> try simp at ha hb
  obtain ⟨_, ha⟩ := ha
  obtain ⟨_, hb⟩ := hb
  subst ha
  simp at hb
  omega

/-- A sprite sets no pixel twice. -/
theorem nodup_spritePixels (ox : Fin 64) (oy : Fin 32) (rows : List Byte) : (spritePixels ox oy rows).Nodup := by
  unfold spritePixels
  rw [List.nodup_flatMap]
  refine ⟨fun _ _ => nodup_rowPixels _ _ _, ?_⟩
  have : rows.zipIdx.Pairwise fun a b => a.2 ≠ b.2 := by
    rw [← List.pairwise_map (f := Prod.snd) (R := (· ≠ ·)), List.zipIdx_map_snd]
    exact List.nodup_range'
  refine this.imp ?_
  rintro a b hab p h1 h2
  rw [mem_rowPixels] at h1 h2
  obtain ⟨_, _, _, _, h1⟩ := h1
  obtain ⟨_, _, _, _, h2⟩ := h2
  omega

/-! ### The renderer's commands and the queue -/

/-- Performing a command neither reads nor writes the queue: it may be replaced before or after (R226). -/
theorem perform_withQueue (c : DrawCommand) (y : System) (q : List DrawCommand) :
    perform c { y with core := { y.core with dq := q } } =
      { perform c y with core := { (perform c y).core with dq := q } } := by
  cases c <;> rfl

@[simp] theorem perform_clear_core (y : System) : (perform .clear y).core = y.core := rfl
@[simp] theorem perform_clear_disp (y : System) : (perform .clear y).disp = Display.blank := rfl
@[simp] theorem perform_draw_core (ox : Fin 64) (oy : Fin 32) (rows : List Byte) (y : System) :
    (perform (.draw ox oy rows) y).core = setCollision (blit y.disp ox oy rows).2 y.core := rfl
@[simp] theorem perform_draw_disp (ox : Fin 64) (oy : Fin 32) (rows : List Byte) (y : System) :
    (perform (.draw ox oy rows) y).disp = (blit y.disp ox oy rows).1 := rfl

theorem rendererStep_nil {y : System} (h : y.core.dq = []) : rendererStep y = y := by
  simp [rendererStep, drawPoll, h]

/-- Everything a renderer step does with a command in front: take it off the queue, then perform it (R226). -/
theorem rendererStep_cons {y : System} {c : DrawCommand} {rest : List DrawCommand} (h : y.core.dq = c :: rest) :
    rendererStep y = perform c { y with core := { y.core with dq := rest } } := by
  simp [rendererStep, drawPoll, h]

/-- `Reset` of the system in terms of the CORE's: the display starts blank (R222, R300). -/
theorem system_load_eq_some {b : Config.Boot} {image : List Byte} {y z : System} :
    System.load b image y = some z ↔ ∃ t, State.load b image y.core = some t ∧ z = ⟨t, Display.blank⟩ := by
  rw [System.load, Option.map_eq_some_iff]
  exact exists_congr fun t => and_congr_right fun _ => eq_comm

/-- A renderer step takes the front command off the queue (R226). -/
theorem dq_rendererStep (y : System) : (rendererStep y).core.dq = y.core.dq.tail := by
  cases h : y.core.dq with
  | nil => simp [rendererStep_nil h, h]
  | cons c r => rw [rendererStep_cons h]; cases c <;> rfl

end Sys2Proof.Machine
end

