-- ==== Sys2Proof/Laws/Transactions.lean ====
section
/-! SUPPORT. What `Reset` leaves in memory, what a tick does to a timer, and the key-wait's word. -/

namespace Sys2Proof.Machine

/-- Above the font every address reads 0 after the reset of the empty image (R40). -/
theorem initialByte_above_font {a : Nat} (h : Config.fontSize ≤ a) : Memory.initialByte a = 0 :=
  List.getD_eq_default _ _ (by simpa using h)

theorem wf_loadMemory (b : Config.Boot) (image : List Byte) : Memory.wf (loadMemory b image) = true := by
  have h := Memory.wf_writeBytes (Memory.wf_writeBytes Memory.wf_nil 0 b.font.toList) Config.programBase image
  simp only [loadMemory]
  split
  · exact Memory.wf_write h _ _
  · exact h

/-- What an address holds once font and image are in place, before 0x1FF is forced (R40). -/
theorem read_fontThenImage (b : Config.Boot) {image : List Byte} (hi : image.length ≤ Config.maxImage) (c : Nat) :
    Memory.read (Memory.writeBytes (Memory.writeBytes [] 0 b.font.toList) Config.programBase image) c =
      if c < 80 then b.font.toList.getD c 0
      else if 0x200 ≤ c ∧ c < 0x200 + image.length then image.getD (c - 0x200) 0 else 0 := by
  have hi' : image.length ≤ 3584 := hi
  have hf : b.font.toList.length = 80 := by simp [Config.fontSize]
  rw [Memory.read_writeBytes (Memory.wf_writeBytes Memory.wf_nil 0 _)
      (by simp only [Config.programBase, Config.memSize]; omega),
    Memory.read_writeBytes Memory.wf_nil (by rw [hf]; decide), hf]
  simp only [Config.programBase]
  by_cases h1 : c < 80
  · rw [if_neg (by omega), if_pos (by omega), if_pos h1]; rfl
  · rw [if_neg h1]
    by_cases h2 : 0x200 ≤ c ∧ c < 0x200 + image.length
    · rw [if_pos h2, if_pos h2]
    · rw [if_neg h2, if_neg h2, if_neg (by omega)]
      exact initialByte_above_font (Nat.le_of_not_lt h1)

/-- What every address holds after `Reset(image)`, whether 0x1FF is forced or not (R40, R300). -/
theorem read_loadMemory (b : Config.Boot) {image : List Byte} (hi : image.length ≤ Config.maxImage) (c : Nat) :
    Memory.read (loadMemory b image) c =
      if c < 80 then b.font.toList.getD c 0
      else if 0x200 ≤ c ∧ c < 0x200 + image.length then image.getD (c - 0x200) 0 else 0 := by
  have hw := Memory.wf_writeBytes (Memory.wf_writeBytes Memory.wf_nil 0 b.font.toList) Config.programBase image
  simp only [loadMemory]
  split
  · rw [Memory.read_write hw (by decide), read_fontThenImage b hi]
    split
    · next h => subst h; rw [if_neg (by omega), if_neg (by omega)]
    · rfl
  · exact read_fontThenImage b hi c

/-- A timer's decrement as a number: it stops at 0 (R262). -/
theorem toNat_decrement (v : Byte) : (decrement v).toNat = v.toNat - 1 := by
  unfold decrement
  split
  · next h => subst h; rfl
  · next h =>
    have h0 : v.toNat ≠ 0 := fun e => h (BitVec.eq_of_toNat_eq e)
    have := v.isLt
    rw [BitVec.toNat_sub]; simp; omega

/-- The word of a key-wait decodes to it (R95). -/
theorem decode_encode_ldVxK (x : RegId) : decode (encode (.ldVxK x)) = .ldVxK x := by
  simp [encode, decode, decodeF]

end Sys2Proof.Machine
end

