-- ==== Sys2Proof/Tests/Slice0.lean ====
section
/-! SUPPORT. The model's own tests: ill-formed terms, words written out from spec/30_encoding.md R95, single steps on the
vectors of spec/95_test_vectors.md, and for every statement with hypotheses a witness that meets them. -/

namespace Sys2Proof.Tests

open Sys2Proof Sys2Proof.Machine

/-! ### Helpers -/

/-- Registers set one after another. -/
def regs (l : List (RegId × Byte)) (s : State) : State := l.foldl (fun t p => t.setV p.1 p.2) s

/-- The reset state with registers set and a word at 0x200. -/
def ready (w : Nat) (l : List (RegId × Byte) := []) : State := regs l (State.reset.withFetchWord 16 w)

/-- The state after one step. -/
def after (s : State) : State :=
  match step s with
  | .next t => t
  | .fault _ => s
  | .refused _ => s

/-! ### WellFormed refuses -/

theorem test_ill_formed_sys_cls : (Instr.sys 0x0E0).wellFormed = false := by decide
theorem test_ill_formed_sys_ret : (Instr.sys 0x0EE).wellFormed = false := by decide
theorem test_ill_formed_unrec8 : (Instr.unrec8 1 2 0x4).wellFormed = false := by decide
theorem test_ill_formed_unrecE : (Instr.unrecE 1 0x9E).wellFormed = false := by decide
theorem test_ill_formed_unrecF : (Instr.unrecF 1 0x0A).wellFormed = false := by decide

/-! ### Decoding: every constructor, by a word written out from the patterns of R95 -/

theorem test_decode_op0 :
    decode 0x00E0 = .cls ∧ decode 0x00EE = .ret ∧ decode 0x00E1 = .sys 0x0E1 ∧ decode 0x0000 = .sys 0x000 ∧
    decode 0x01E0 = .sys 0x1E0 := by decide

theorem test_decode_control :
    decode 0x1ABC = .jp 0xABC ∧ decode 0x2208 = .call 0x208 ∧ decode 0x3007 = .seImm 0 0x07 ∧
    decode 0x4A98 = .sneImm 10 0x98 ∧ decode 0x5121 = .seReg 1 2 0x1 ∧ decode 0x93C0 = .sneReg 3 12 0x0 ∧
    decode 0xBFFF = .jpV0 0xFFF := by decide

theorem test_decode_immediates :
    decode 0x60CD = .ldImm 0 0xCD ∧ decode 0x7FFF = .addImm 15 0xFF ∧ decode 0xA300 = .ldI 0x300 ∧
    decode 0xC10F = .rnd 1 0x0F ∧ decode 0xD3A5 = .drw 3 10 0x5 := by decide

theorem test_decode_op8 :
    decode 0x8400 = .ldReg 4 0 ∧ decode 0x8121 = .orReg 1 2 ∧ decode 0x8122 = .andReg 1 2 ∧
    decode 0x8123 = .xorReg 1 2 ∧ decode 0x8124 = .addReg 1 2 ∧ decode 0x8125 = .subReg 1 2 ∧
    decode 0x8126 = .shrReg 1 2 ∧ decode 0x8127 = .subnReg 1 2 ∧ decode 0x812E = .shlReg 1 2 ∧
    decode 0x8128 = .unrec8 1 2 0x8 ∧ decode 0x812F = .unrec8 1 2 0xF := by decide

theorem test_decode_opE :
    decode 0xE39E = .skp 3 ∧ decode 0xE3A1 = .sknp 3 ∧ decode 0xE19F = .unrecE 1 0x9F := by decide

theorem test_decode_opF :
    decode 0xF107 = .ldVxDT 1 ∧ decode 0xF30A = .ldVxK 3 ∧ decode 0xF115 = .ldDTVx 1 ∧ decode 0xF118 = .ldSTVx 1 ∧
    decode 0xF21E = .addI 2 ∧ decode 0xF029 = .ldF 0 ∧ decode 0xF033 = .ldB 0 ∧ decode 0xF355 = .storeBlock 3 ∧
    decode 0xF265 = .loadBlock 2 ∧ decode 0xF1FF = .unrecF 1 0xFF ∧ decode 0xF000 = .unrecF 0 0x00 := by decide

/-- R91: the fields of `D3A5`. -/
theorem test_fields :
    fieldOp 0xD3A5 = 0xD ∧ fieldX 0xD3A5 = 3 ∧ fieldY 0xD3A5 = 0xA ∧ fieldN 0xD3A5 = 5 ∧ fieldKK 0xD3A5 = 0xA5 ∧
    fieldNNN 0xD3A5 = 0x3A5 := by decide

/-- R63: the byte at the lower address is the high one. -/
theorem test_decode_bytes : decodeBytes [0xA3, 0x00, 0x77] = .ok (.ldI 0x300, [0x77]) := by rfl

theorem test_decode_one_byte : decodeBytes [0xA3] = .error .truncated := by rfl

theorem test_decode_table_word : decodeTableWord 16 0xF355 = some (.storeBlock 3) := by decide

theorem test_fetch_word : fetch16 (State.reset.withFetchWord 16 0xD3A5) = some 0xD3A5 := by decide

/-! ### Cycle and unrecognised words (95_test_vectors.md, 2.1) -/

theorem test_reset_memory_canonical : Memory.wf State.reset.mem = true := by decide
theorem test_reset_font : State.reset.readByte 0 = 0xF0 ∧ State.reset.readByte 1 = 0x90 ∧ State.reset.readByte 79 = 0x80 ∧
    State.reset.readByte 80 = 0 := by decide

theorem test_sys : (after (ready 0x0123)).pc = 0x202 ∧ diagnostic (ready 0x0123) = some ⟨0x200, 0x0123⟩ := by decide
theorem test_unrec8 : (after (ready 0x8018)).V = (ready 0x8018).V ∧ diagnostic (ready 0x8018) = some ⟨0x200, 0x8018⟩ := by
  decide
theorem test_unrecE : (after (ready 0xE19F)).pc = 0x202 ∧ diagnostic (ready 0xE19F) = some ⟨0x200, 0xE19F⟩ := by decide
theorem test_unrecF : (after (ready 0xF000)).latch = .idle ∧ diagnostic (ready 0xF000) = some ⟨0x200, 0xF000⟩ := by decide
theorem test_recognised_no_diagnostic : diagnostic (ready 0x6001) = none := by decide

theorem test_fetch_out_of_bounds :
    (after { State.reset with pc := 0xFFF }).fault = some .fetchOutOfBounds ∧
    (after { State.reset with pc := 0xFFF }).pc = 0xFFF := by decide

/-- R65: an odd `pc` is no exception. -/
theorem test_odd_pc :
    (after (State.withFetchWord { State.reset with pc := 0x201 } 16 0x6107)).getV 1 = 0x07 ∧
    (after (State.withFetchWord { State.reset with pc := 0x201 } 16 0x6107)).pc = 0x203 := by decide

/-! ### Control (2.2) -/

theorem test_ret_pops :
    (after { ready 0x00EE with stack := [0x204, 0x300] }).pc = 0x204 ∧
    (after { ready 0x00EE with stack := [0x204, 0x300] }).stack = [0x300] := by decide
theorem test_ret_empty : (after (ready 0x00EE)) = { ready 0x00EE with fault := some .returnEmptyStack } := by decide
theorem test_jp : (after (ready 0x1FFF)).pc = 0xFFF := by decide
theorem test_call : (after (ready 0x2208)).pc = 0x208 ∧ (after (ready 0x2208)).stack = [0x202] := by decide
theorem test_call_full :
    (after { ready 0x2208 with limits := ⟨some 0, none⟩ }).fault = some .stackOverflow := by decide
theorem test_seImm_skips : (after (ready 0x3007 [(0, 0x07)])).pc = 0x204 := by decide
theorem test_seImm_falls_through : (after (ready 0x3008 [(0, 0x07)])).pc = 0x202 := by decide
theorem test_sneImm_skips : (after (ready 0x4008 [(0, 0x07)])).pc = 0x204 := by decide
theorem test_sneImm_falls_through : (after (ready 0x4007 [(0, 0x07)])).pc = 0x202 := by decide
theorem test_seReg_low_nibble : (after (ready 0x5011 [(0, 0x07), (1, 0x07)])).pc = 0x204 := by decide
theorem test_seReg_falls_through : (after (ready 0x5010 [(0, 0x07), (1, 0x08)])).pc = 0x202 := by decide
theorem test_sneReg_skips : (after (ready 0x9010 [(0, 0x07), (1, 0x08)])).pc = 0x204 := by decide
theorem test_sneReg_falls_through : (after (ready 0x9010 [(0, 0x07), (1, 0x07)])).pc = 0x202 := by decide
theorem test_jpV0_unmasked : (after (ready 0xBFFF [(0, 0xFF), (15, 0x01)])).pc = 0x10FE := by decide

/-! ### Arithmetic and logic (S1 to S4, 2.3) -/

theorem test_ldImm : (after (ready 0x60CD)).getV 0 = 0xCD := by decide
theorem test_addImm_wraps : (after (ready 0x7FFF [(15, 0x01)])).getV 15 = 0x00 := by decide
theorem test_addImm_no_flag : (after (ready 0x7390 [(3, 0x90)])).getV 15 = 0 ∧ (after (ready 0x7390 [(3, 0x90)])).getV 3 = 0x20 := by
  decide
theorem test_ldReg : (after (ready 0x8400 [(0, 0x11)])).getV 4 = 0x11 := by decide
theorem test_orReg : (after (ready 0x8121 [(1, 0x0F), (2, 0xF0), (15, 1)])).getV 1 = 0xFF ∧
    (after (ready 0x8121 [(1, 0x0F), (2, 0xF0), (15, 1)])).getV 15 = 0 := by decide
theorem test_orReg_into_flag : (after (ready 0x8F11 [(15, 0x01), (1, 0xF0)])).getV 15 = 0x00 := by decide
theorem test_andReg : (after (ready 0x8122 [(1, 0x3C), (2, 0x0F), (15, 1)])).getV 1 = 0x0C ∧
    (after (ready 0x8122 [(1, 0x3C), (2, 0x0F), (15, 1)])).getV 15 = 0 := by decide
theorem test_xorReg : (after (ready 0x8123 [(1, 0xFF), (2, 0x0F), (15, 1)])).getV 1 = 0xF0 ∧
    (after (ready 0x8123 [(1, 0xFF), (2, 0x0F), (15, 1)])).getV 15 = 0 := by decide
theorem test_addReg_carry : (after (ready 0x8014 [(0, 0xC8), (1, 0x64)])).getV 0 = 0x2C ∧
    (after (ready 0x8014 [(0, 0xC8), (1, 0x64)])).getV 15 = 1 := by decide
theorem test_addReg_into_flag : (after (ready 0x8F14 [(15, 0xF0), (1, 0x20)])).getV 15 = 0x01 := by decide
theorem test_subReg_borrow : (after (ready 0x8015 [(0, 0x10), (1, 0x20)])).getV 0 = 0xF0 ∧
    (after (ready 0x8015 [(0, 0x10), (1, 0x20)])).getV 15 = 0 := by decide
theorem test_subReg_equal : (after (ready 0x8015 [(0, 0x33), (1, 0x33)])).getV 15 = 1 := by decide
theorem test_subnReg : (after (ready 0x8017 [(0, 0x10), (1, 0x20)])).getV 0 = 0x10 ∧
    (after (ready 0x8017 [(0, 0x10), (1, 0x20)])).getV 15 = 1 := by decide
theorem test_subnReg_borrow : (after (ready 0x8017 [(0, 0x20), (1, 0x10)])).getV 0 = 0xF0 ∧
    (after (ready 0x8017 [(0, 0x20), (1, 0x10)])).getV 15 = 0 := by decide
theorem test_shrReg_source : (after (ready 0x8126 [(2, 0x05), (1, 0xAA)])).getV 1 = 0x02 ∧
    (after (ready 0x8126 [(2, 0x05), (1, 0xAA)])).getV 2 = 0x05 ∧
    (after (ready 0x8126 [(2, 0x05), (1, 0xAA)])).getV 15 = 1 := by decide
theorem test_shrReg_source_is_flag : (after (ready 0x80F6 [(15, 0x03)])).getV 0 = 0x01 := by decide
theorem test_shlReg : (after (ready 0x812E [(2, 0x81)])).getV 1 = 0x02 ∧ (after (ready 0x812E [(2, 0x81)])).getV 15 = 1 := by
  decide
theorem test_shlReg_no_carry : (after (ready 0x801E [(0, 0xAA), (1, 0x01)])).getV 15 = 0 := by decide
theorem test_rnd_masks : (rndWith 0xA7 1 0x0F State.reset).getV 1 = 0x07 := by decide

/-! ### Index and memory (S8, S9, 2.4) -/

theorem test_ldI : (after (ready 0xAFFF)).I = 0x0FFF := by decide
theorem test_addI_no_flag : (after { ready 0xF01E [(0, 1), (15, 1)] with I := 0x0FFF }).I = 0x1000 ∧
    (after { ready 0xF01E [(0, 1), (15, 1)] with I := 0x0FFF }).getV 15 = 1 := by decide
theorem test_addI_wraps : (after { ready 0xF01E [(0, 2)] with I := 0xFFFF }).I = 0x0001 := by decide
theorem test_ldF_all_bits : (after (ready 0xF029 [(0, 0x1F)])).I = 0x009B := by decide
theorem test_ldB : (after { ready 0xF033 [(0, 0xCD)] with I := 0x300 }).mem =
    Memory.writeBytes (ready 0xF033).mem 0x300 [2, 0, 5] := by decide
theorem test_ldB_out_of_bounds : (after { ready 0xF033 [(0, 0xFF)] with I := 0xFFE }) =
    { ready 0xF033 [(0, 0xFF)] with I := 0xFFE, fault := some .dataOutOfBounds } := by decide
theorem test_storeBlock : (after { ready 0xF155 [(0, 0x11), (1, 0x22), (2, 0x33)] with I := 0x400 }).mem =
    Memory.writeBytes (ready 0xF155).mem 0x400 [0x11, 0x22] ∧
    (after { ready 0xF155 [(0, 0x11), (1, 0x22), (2, 0x33)] with I := 0x400 }).I = 0x402 := by decide
theorem test_storeBlock_out_of_bounds : (after { ready 0xFF55 with I := 0xFF1 }) =
    { ready 0xFF55 with I := 0xFF1, fault := some .dataOutOfBounds } := by decide
theorem test_loadBlock_font : (after (ready 0xF165 [(2, 7)])).getV 0 = 0xF0 ∧ (after (ready 0xF165 [(2, 7)])).getV 1 = 0x90 ∧
    (after (ready 0xF165 [(2, 7)])).getV 2 = 7 ∧ (after (ready 0xF165 [(2, 7)])).I = 2 := by decide
theorem test_loadBlock_out_of_bounds : (after { ready 0xF065 with I := 0x1000 }).fault = some .dataOutOfBounds := by decide

/-! ### Display (2.5) -/

theorem test_cls_queues : (after { ready 0x00E0 with dq := [.draw 0 0 [0x80]] }).dq = [.draw 0 0 [0x80], .clear] := by decide
theorem test_drw_queues : (after (ready 0xD015 [(0, 0x46), (1, 0x21)])).dq = [.draw 6 1 [0xF0, 0x90, 0x90, 0x90, 0xF0]] := by
  decide
theorem test_drw_no_rows : (after { ready 0xD010 [(0, 0xC8), (1, 0x64)] with I := 0xFFFF }).dq = [.draw 8 4 []] := by decide
theorem test_poll : drawPoll { State.reset with dq := [.clear, .draw 0 0 [0x80]] } =
    (some .clear, { State.reset with dq := [.draw 0 0 [0x80]] }) := by decide
theorem test_set_collision : (setCollision true State.reset).getV 15 = 1 ∧
    (setCollision false (regs [(15, 7)] State.reset)).getV 15 = 0 := by decide
/-- R224, R225: six columns and the second row are clipped. -/
theorem test_blit_clips : spritePixels 62 31 [0xFF, 0xFF] = [(62, 31), (63, 31)] := by decide
/-- R224: two overlapping rows. -/
theorem test_blit_pixels : spritePixels 0 0 [0xC0] = [(0, 0), (1, 0)] ∧ spritePixels 1 0 [0xC0] = [(1, 0), (2, 0)] := by decide
/-- R223: `Clear` issues no `SetCollision`. -/
theorem test_clear_keeps_flag : (perform .clear ⟨regs [(15, 1)] State.reset, Display.blank⟩).core.getV 15 = 1 := by decide

/-- R222, D14: the display is blank after reset, and again after a `Reset`. -/
theorem test_display_starts_blank : System.reset.disp.pixel 0 0 = false ∧
    act .anyTime (.reset defaultBoot []) ⟨State.reset, Display.blank.flip 3 5⟩ =
      some ⟨{ State.reset with mem := loadMemory defaultBoot [] }, Display.blank⟩ := ⟨by decide, rfl⟩

/-! ### Keys and timers (2.6) -/

theorem test_skp : (after (keyEvent 5 true (ready 0xE09E [(0, 0x15)]))).pc = 0x204 := by decide
theorem test_skp_up : (after (ready 0xE09E)).pc = 0x202 := by decide
theorem test_sknp : (after (keyEvent 5 true (ready 0xE0A1 [(0, 0x15)]))).pc = 0x202 := by decide
theorem test_sknp_up : (after (ready 0xE0A1)).pc = 0x204 := by decide
theorem test_ldVxDT : (after { ready 0xF107 with dt := 0x3C }).getV 1 = 0x3C := by decide
theorem test_ldDTVx : (after (ready 0xF115 [(1, 0x3C)])).dt = 0x3C := by decide
theorem test_ldSTVx : (after (ready 0xF118 [(1, 0x02)])).st = 0x02 := by decide
theorem test_ldVxK_enters : (after (ready 0xF30A)) = { ready 0xF30A with latch := .waiting } := by decide
theorem test_ldVxK_completes : (after { ready 0xFF0A with latch := .released 7 }).getV 15 = 0x07 ∧
    (after { ready 0xFF0A with latch := .released 7 }).pc = 0x202 ∧
    (after { ready 0xFF0A with latch := .released 7 }).latch = .idle := by decide
theorem test_tick_stops_at_zero : timerTick { State.reset with dt := 2 } = { State.reset with dt := 1 } := by decide
theorem test_key_event_other_release : (keyEvent 2 false { State.reset with latch := .pressed 7 }).latch = .pressed 7 := by decide
theorem test_key_event_repeat : (keyEvent 7 true { State.reset with latch := .released 7 }).latch = .released 7 := by decide
theorem test_waiting : waiting State.reset = false ∧ waiting { State.reset with latch := .pressed 7 } = true := by decide

/-! ### Reset and the end of a run -/

theorem test_load_too_long : State.load defaultBoot (List.replicate 3585 0) State.reset = none := by
  simp only [State.load, List.length_replicate]; rfl
theorem test_self_jump : atSelfJump (ready 0x1200) = true ∧ atSelfJump (ready 0x1202) = false := by decide

/-! ### Witnesses: concrete states and operands that meet the hypotheses of each statement

Each name says which statement it is for. A statement with several clauses has a witness for each, at a value where
clauses meet. A statement without hypotheses has none here. -/

/-- A state in the middle of a key-wait, running, with the word `F30A` at `pc`. -/
def waitState : State := { ready 0xF30A with latch := .waiting }

/-- The result is a next state, and that one. -/
def answers (r : Result) (t : State) : Bool :=
  match r with
  | .next u => decide (u = t)
  | .fault _ => false
  | .refused _ => false

theorem of_answers {r : Result} {t : State} (h : answers r t = true) : r = .next t := by
  cases r with
  | next u => simpa [answers] using h
  | fault _ => simp [answers] at h
  | refused _ => simp [answers] at h

/-- The invariant of a state with empty stack and queue and no depth given. -/
theorem inv_of {s : State} (mem : Memory.wf s.mem = true) (pc : s.pc.toNat ≤ 0x10FE) (stack : s.stack = []) (dq : s.dq = [])
    (limits : s.limits = Config.Limits.unbounded)
    (wait : s.latch ≠ .idle → ∃ x, fetch16 s = some (encode (.ldVxK x))) : Inv s :=
  ⟨mem, pc, by simp [stack], by simp [limits, Config.Limits.unbounded], by simp [dq],
    by simp [limits, Config.Limits.unbounded], wait⟩

theorem inv_ready_call : Inv (ready 0x2208) :=
  inv_of (by decide) (by decide) rfl rfl rfl fun h => absurd rfl h

theorem inv_waitState : Inv waitState :=
  inv_of (by decide) (by decide) rfl rfl rfl fun _ => ⟨3, by decide⟩

theorem witness_DecodingAnEncodedInstructionGivesItBack :
    (Instr.sys 0x0E1).wellFormed = true ∧ (Instr.unrec8 1 2 0xF).wellFormed = true ∧
    (Instr.unrecE 1 0x9F).wellFormed = true ∧ (Instr.unrecF 1 0xFF).wellFormed = true ∧
    (Instr.drw 15 15 15).wellFormed = true := by decide

theorem witness_DecoderPicksTheMostSpecificMatchingRow :
    (⟨0xF000, 0x0000⟩ : OpcodeRow) ∈ opcodeTable ∧ OpcodeRow.matches ⟨0xF000, 0x0000⟩ 0x00E0 = true ∧
    opcodeRow (decode 0x00E0) = ⟨0xFFFF, 0x00E0⟩ := by decide

/-- At the last address that can be fetched from. -/
theorem witness_StepRunsTheDecodedInstruction :
    ({ State.reset with pc := 0xFFE } : State).fault = none ∧ ({ State.reset with pc := 0xFFE } : State).pc.toNat + 1 ≤ 4095 ∧
    (Instr.sys 0).wellFormed = true ∧
    decodeBytes [State.readByte { State.reset with pc := 0xFFE } 0xFFE, State.readByte { State.reset with pc := 0xFFE } 0xFFF] =
      .ok (.sys 0, []) :=
  ⟨rfl, by decide, by decide, rfl⟩

theorem witness_FetchFaultsExactlyBeyondMemory :
    State.reset.fault = none ∧ 4095 < ({ State.reset with pc := 0xFFF } : State).pc.toNat + 1 ∧
    ({ State.reset with pc := 0xFFE } : State).pc.toNat + 1 ≤ 4095 ∧ step (ready 0x6001) = .next (after (ready 0x6001)) :=
  ⟨rfl, by decide, by decide, of_answers (by decide)⟩

theorem witness_HaltedCoreIgnoresEveryCycle :
    ({ State.reset with fault := some .stackOverflow } : State).fault = some .stackOverflow := rfl

theorem witness_FaultingCycleChangesOnlyTheFaultField :
    (ready 0x00EE).fault = none ∧ step (ready 0x00EE) = .next (after (ready 0x00EE)) ∧ (after (ready 0x00EE)).fault ≠ none :=
  ⟨rfl, of_answers (by decide), by decide⟩

/-- One next state for each cause of the table, and one with no cause. -/
theorem witness_FaultCausesAreThoseOfTheTable : (ready 0).fault = none ∧
    exec .ret (ready 0) = .next { ready 0 with fault := some .returnEmptyStack } ∧
    exec (.call 0x300) { ready 0 with limits := ⟨some 0, none⟩ } =
      .next { ready 0 with limits := ⟨some 0, none⟩, fault := some .stackOverflow } ∧
    exec (.loadBlock 0) { ready 0 with I := 0x1000 } = .next { ready 0 with I := 0x1000, fault := some .dataOutOfBounds } ∧
    exec .cls { ready 0 with limits := ⟨none, some 0⟩ } =
      .next { ready 0 with limits := ⟨none, some 0⟩, fault := some .drawQueueOverflow } ∧
    exec (.loadBlock 0) { ready 0xF065 with I := 0xFFF } = .next (after { ready 0xF065 with I := 0xFFF }) ∧ (after { ready 0xF065 with I := 0xFFF }).fault = none :=
  ⟨rfl, of_answers (by decide), of_answers (by decide), of_answers (by decide), of_answers (by decide),
    of_answers (by decide), by decide⟩

theorem witness_EveryInstructionKeepsWhatItsFootprintLeavesOut :
    exec (.storeBlock 0) { ready 0 [(0, 5)] with I := 0xFFF } =
      .next { ready 0 [(0, 5)] with I := 0x1000, pc := 0x202, mem := [(0xFFF, 5)] } :=
  of_answers (by decide)

/-- An unrecognised word, a recognised one, a halted CORE, and the first `pc` that cannot be fetched from. -/
theorem witness_UnrecognisedWordsOnlyAdvanceAndReport :
    (Instr.unrec8 1 2 0x8).unrecognised = true ∧ (ready 0x8128).fault = none ∧ fetch16 (ready 0x8128) = some 0x8128 ∧
    (decode 0x8128).unrecognised = true ∧ (ready 0x8127).fault = none ∧ fetch16 (ready 0x8127) = some 0x8127 ∧
    (decode 0x8127).unrecognised = false ∧
    ({ ready 0x8128 with fault := some .stackOverflow } : State).fault ≠ none ∧
    fetch16 { State.reset with pc := 0xFFF } = none := by decide

theorem witness_ReturnPopsThePc :
    ({ State.reset with stack := [0x204] } : State).stack = 0x204 :: [] ∧ State.reset.stack = [] := by decide

theorem witness_CallPushesTheNextAddressAndJumps :
    State.reset.limits.stackDepth ≠ some State.reset.stack.length ∧
    ({ State.reset with limits := ⟨some 1, none⟩ } : State).limits.stackDepth ≠ some State.reset.stack.length ∧
    ({ State.reset with limits := ⟨some 1, none⟩, stack := [0x204] } : State).limits.stackDepth = some [(0x204 : Word16)].length := by
  decide

theorem witness_ReturnAfterCallContinuesBehindTheCall :
    State.reset.fault = none ∧ exec (.call 0x300) State.reset = .next { State.reset with pc := 0x300, stack := [0x202] } ∧
    ({ State.reset with pc := 0x310, stack := [0x202] } : State).stack = [0x202] :=
  ⟨rfl, of_answers (by decide), rfl⟩

/-- For the statements about `x ≠ 0xF`: the registers next to the flag register, and 0. -/
theorem witness_BitwiseOperationsResetTheFlag : (14 : RegId) ≠ VF ∧ (0 : RegId) ≠ VF := by decide
theorem witness_AddRegistersRecordsTheCarry : (14 : RegId) ≠ VF ∧ (0 : RegId) ≠ VF := by decide
theorem witness_SubtractionsRecordNotBorrow : (14 : RegId) ≠ VF ∧ (0 : RegId) ≠ VF := by decide
theorem witness_ShiftsTakeTheirSourceFromVy : (14 : RegId) ≠ VF ∧ (0 : RegId) ≠ VF := by decide

/-- The last `I` that fits and the first that does not. -/
theorem witness_BcdStoresThreeDecimalDigits :
    Memory.wf State.reset.mem = true ∧ ({ State.reset with I := 0xFFD } : State).I.toNat + 2 ≤ 4095 ∧
    4095 < ({ State.reset with I := 0xFFE } : State).I.toNat + 2 := by decide

theorem witness_StoreBlockCopiesRegistersAndAdvancesIndex :
    Memory.wf State.reset.mem = true ∧ ({ State.reset with I := 0xFF0 } : State).I.toNat + (15 : RegId).val ≤ 4095 ∧
    4095 < ({ State.reset with I := 0xFF1 } : State).I.toNat + (15 : RegId).val := by decide

theorem witness_LoadBlockCopiesMemoryAndAdvancesIndex :
    ({ State.reset with I := 0xFFF } : State).I.toNat + (0 : RegId).val ≤ 4095 ∧
    4095 < ({ State.reset with I := 0x1000 } : State).I.toNat + (0 : RegId).val := by decide

theorem witness_StoredBlockLoadsBackUnchanged :
    Memory.wf State.reset.mem = true ∧ State.reset.fault = none ∧
    exec (.storeBlock 0) { regs [(0, 5)] State.reset with I := 0x300 } =
      .next { regs [(0, 5)] State.reset with I := 0x301, pc := 0x202, mem := [(0x300, 5)] } ∧
    ({ State.reset with I := 0x300, mem := [(0x300, 5)] } : State).I = 0x300 :=
  ⟨by decide, rfl, of_answers (by decide), rfl⟩

/-- The block is stored at `pc + 2` and is the next word fetched. -/
theorem witness_NextFetchReadsWhatWasStored :
    Memory.wf State.reset.mem = true ∧ State.reset.fault = none ∧ 1 ≤ (1 : RegId).val ∧
    ({ regs [(0, 0x61), (1, 7)] State.reset with I := 0x202 } : State).I = State.reset.pc + 2 ∧ State.reset.pc.toNat ≤ 4094 ∧
    exec (.storeBlock 1) { regs [(0, 0x61), (1, 7)] State.reset with I := 0x202 } =
      .next { regs [(0, 0x61), (1, 7)] State.reset with I := 0x204, pc := 0x202, mem := [(0x202, 0x61), (0x203, 7)] } :=
  ⟨by decide, rfl, by decide, by decide, by decide, of_answers (by decide)⟩

theorem witness_ClearIsAppendedToTheQueue :
    State.reset.limits.drawqDepth ≠ some State.reset.dq.length ∧
    ({ State.reset with limits := ⟨none, some 1⟩, dq := [.clear] } : State).limits.drawqDepth = some [DrawCommand.clear].length := by
  decide

/-- No row beyond memory, the last `I` of 15 rows and the first beyond it, with room in the queue and without. -/
theorem witness_DrawQueuesTheSpriteWithoutAFlag :
    (0 : Nibble).toNat = 0 ∧ ({ State.reset with I := 0xFF1 } : State).I.toNat + (15 : Nibble).toNat - 1 ≤ 4095 ∧
    ((15 : Nibble).toNat ≠ 0 ∧ 4095 < ({ State.reset with I := 0xFF2 } : State).I.toNat + (15 : Nibble).toNat - 1) ∧
    ((1 : Nibble).toNat ≠ 0 ∧ 4095 < ({ State.reset with I := 0x1000 } : State).I.toNat + (1 : Nibble).toNat - 1) ∧
    State.reset.limits.drawqDepth ≠ some State.reset.dq.length ∧
    ({ State.reset with limits := ⟨none, some 0⟩ } : State).limits.drawqDepth = some State.reset.dq.length := by decide

theorem witness_PollsReturnTheCommandsInOrder :
    State.reset.dq = [] ∧ ({ State.reset with dq := [.clear, .draw 0 0 [0x80]] } : State).dq = .clear :: [.draw 0 0 [0x80]] := by
  decide

/-- An empty queue, `Clear` in front, and an empty `Draw` in front. -/
theorem witness_RendererStepPerformsTheFrontCommand :
    System.reset.core.dq = [] ∧
    (⟨{ State.reset with dq := [.clear] }, Display.blank⟩ : System).core.dq = .clear :: [] ∧
    (⟨{ State.reset with dq := [.draw 5 5 [], .clear] }, Display.blank⟩ : System).core.dq = .draw 5 5 [] :: [.clear] :=
  ⟨rfl, rfl, rfl⟩

/-- A pixel that the sprite sets and one it does not, at the corner where it is clipped. -/
theorem witness_BlitXorsTheSpriteAndReportsCollision :
    spriteCovers 62 31 [0xFF, 0xFF] 63 31 ∧ ¬ spriteCovers 62 31 [0xFF, 0xFF] 61 31 := by
  constructor
  · exact ⟨0, 1, 0xFF, by decide, by decide, by decide, by decide, by decide⟩
  · rintro ⟨r, c, row, -, -, -, h, -⟩
    have h : 61 = 62 + c := h
    omega

theorem witness_CollisionArrivesOnlyWithTheRenderer :
    (ready 0xD005).fault = none ∧ (ready 0xD005).dq = [] ∧ (ready 0xD005).limits.drawqDepth ≠ some 0 ∧
    fetch16 (ready 0xD005) = some 0xD005 ∧ decode 0xD005 = .drw 0 0 5 ∧ ¬ dataOutside (.drw 0 0 5) (ready 0xD005) :=
  ⟨rfl, rfl, by decide, by decide, by decide, by unfold dataOutside; decide⟩

theorem witness_KeySkipsTestTheLowNibblesKey : (5 : Key).val = ((regs [(0, 0x15)] State.reset).getV 0).toNat % 16 := by decide

theorem witness_KeyWaitEntersStallsOrCompletes :
    State.reset.latch = .idle ∧ waitState.latch = .waiting ∧ ({ waitState with latch := .pressed 15 } : State).latch = .pressed 15 ∧
    ({ waitState with latch := .released 0 } : State).latch = .released 0 := by decide

theorem witness_UnresolvedWaitStallsEveryCycle :
    (Inv waitState ∧ waitState.fault = none ∧ waitState.latch = .waiting) ∧
    (Inv { waitState with latch := .pressed 7 } ∧ ({ waitState with latch := .pressed 7 } : State).fault = none ∧ ∃ k, ({ waitState with latch := .pressed 7 } : State).latch = .pressed k) :=
  ⟨⟨inv_waitState, rfl, rfl⟩,
    inv_of (by decide) (by decide) rfl rfl rfl fun _ => ⟨3, by decide⟩, rfl, 7, rfl⟩

theorem witness_KeyWaitResolvesOnPressThenRelease :
    (ready 0xF30A).fault = none ∧ (ready 0xF30A).latch = .idle ∧ fetch16 (ready 0xF30A) = some (encode (.ldVxK 3)) ∧
    (3 : Key) ≠ 5 := by decide

theorem witness_LatchReactsByTheTable : (2 : Key) ≠ 7 := by decide

theorem witness_ExternalTransactionsNeverRedirectTheProgram :
    (Transaction.keyEvent 5 true).external = true ∧ Transaction.timerTick.external = true ∧ Transaction.drawPoll.external = true ∧
    (Transaction.setCollision false).external = true ∧ Transaction.soundTimer.external = true ∧ Transaction.waiting.external = true ∧
    (0 : RegId) ≠ VF := by decide

theorem witness_TransactionsAnswerAndWriteTheirOwnState : (2 : Key) ≠ 7 := by decide

theorem witness_OnlyResetClearsAFault :
    (∀ b image, Transaction.reset b image ∉ [Transaction.instrCycle, .keyEvent 5 true, .timerTick]) ∧
    ({ State.reset with fault := some .dataOutOfBounds } : State).fault = some .dataOutOfBounds ∧
    ∃ t, runTransactions [Transaction.instrCycle, .keyEvent 5 true, .timerTick]
      { State.reset with fault := some .dataOutOfBounds } = some t :=
  ⟨by intro b image; simp, rfl, _, rfl⟩

/-- The system's `Reset` takes an image and refuses one that is too long. -/
theorem witness_ResetLoadsFontAndImage_system :
    (∃ t, State.load defaultBoot [0x12, 0x00] System.reset.core = some t) ∧
    State.load defaultBoot (List.replicate 3585 0) System.reset.core = none :=
  ⟨⟨_, rfl⟩, test_load_too_long⟩

/-- The longest image, one byte more, and the address ranges where they meet. -/
theorem witness_ResetLoadsFontAndImage :
    (List.replicate 3584 (0 : Byte)).length ≤ 3584 ∧ 3584 < (List.replicate 3585 (0 : Byte)).length ∧ 79 < 80 ∧
    0x1FF < 0x200 ∧ 0 < ([7] : List Byte).length ∧ 0x200 + ([7] : List Byte).length ≤ 0x201 := by
  simp only [List.length_replicate]; decide

theorem witness_ForcingByte1FFChangesNothing : ([0x12, 0x00] : List Byte).length ≤ 3584 := by decide

theorem witness_SelfJumpIsAFixedPoint : (ready 0x1200).fault = none ∧ atSelfJump (ready 0x1200) = true := by decide

/-- A `CALL` from reset, and a key-wait that goes on. -/
theorem witness_EveryStepKeepsTheInvariant :
    (Inv (ready 0x2208) ∧ step (ready 0x2208) = .next (after (ready 0x2208))) ∧
    (Inv waitState ∧ step waitState = .next waitState) :=
  ⟨⟨inv_ready_call, of_answers (by decide)⟩, inv_waitState, of_answers (by decide)⟩

theorem witness_EveryScheduleKeepsTheInvariant :
    (∀ tr ∈ [Transaction.keyEvent 5 true, .instrCycle], tr.startsBelow) ∧ Inv waitState ∧
    ∃ t, runTransactions [Transaction.keyEvent 5 true, .instrCycle] waitState = some t :=
  ⟨by intro tr h; simp only [List.mem_cons, List.not_mem_nil, or_false] at h; obtain rfl | rfl := h <;> trivial,
    inv_waitState, _, rfl⟩

theorem witness_ResetStartsBelow : (Transaction.reset defaultBoot []).startsBelow := by
  show (0x200 : Word16).toNat ≤ 0x10FE; decide

end Sys2Proof.Tests
end

section
/-! PROOFS of the family `00_scope.md`: what every instruction keeps, and from it the fault's frame (D16), the
diagnostic's cycle (R126) and the invariant over every schedule of transactions (R5, R7). -/

/-! ### Every word is the encoding of what it decodes to (R97, R98) -/

namespace Sys2Proof

theorem encode_decode0 (nnn : Addr12) : encode (decode0 nnn) = wordNNN 0x0 nnn := by
  unfold decode0
  split_ifs <;> simp [encode, *]

theorem encode_decode8 (x y : RegId) (n : Nibble) : encode (decode8 x y n) = wordXYN 0x8 x y n := by
  unfold decode8
  split_ifs <;> simp [encode, *]

theorem encode_decodeE (x : RegId) (kk : Byte) : encode (decodeE x kk) = wordXKK 0xE x kk := by
  unfold decodeE
  split_ifs <;> simp [encode, *]

theorem encode_decodeF (x : RegId) (kk : Byte) : encode (decodeF x kk) = wordXKK 0xF x kk := by
  unfold decodeF
  split_ifs <;> simp [encode, *]

section

variable {w : Word16} {op : Nibble} (h : fieldOp w = op)
include h

theorem wordNNN_of_fieldOp : wordNNN op (fieldNNN w) = w := h ▸ wordNNN_fields w

theorem wordXKK_of_fieldOp : wordXKK op (fieldX w) (fieldKK w) = w := h ▸ wordXKK_fields w

theorem wordXYN_of_fieldOp : wordXYN op (fieldX w) (fieldY w) (fieldN w) = w := h ▸ wordXYN_fields w

end

/-- One test of the dispatch: both ways lead to an instruction that encodes to `w` (R94). -/
theorem encode_ite {w : Word16} {c : Prop} [Decidable c] {i j : Instr} (hi : c → encode i = w)
    (hj : ¬ c → encode j = w) : encode (if c then i else j) = w := by
  split
  · exact hi ‹_›
  · exact hj ‹_›

/-- No two words share an instruction: the encoder gives back the word that was decoded (R91, R97, R98). -/
theorem encode_decode (w : Word16) : encode (decode w) = w := by
  unfold decode
  refine encode_ite (fun h => (encode_decode0 _).trans (wordNNN_of_fieldOp h)) fun h0 => ?_
  refine encode_ite wordNNN_of_fieldOp fun h1 => ?_
  refine encode_ite wordNNN_of_fieldOp fun h2 => ?_
  refine encode_ite wordXKK_of_fieldOp fun h3 => ?_
  refine encode_ite wordXKK_of_fieldOp fun h4 => ?_
  refine encode_ite wordXYN_of_fieldOp fun h5 => ?_
  refine encode_ite wordXKK_of_fieldOp fun h6 => ?_
  refine encode_ite wordXKK_of_fieldOp fun h7 => ?_
  refine encode_ite (fun h => (encode_decode8 _ _ _).trans (wordXYN_of_fieldOp h)) fun h8 => ?_
  refine encode_ite wordXYN_of_fieldOp fun h9 => ?_
  refine encode_ite wordNNN_of_fieldOp fun hA => ?_
  refine encode_ite wordNNN_of_fieldOp fun hB => ?_
  refine encode_ite wordXKK_of_fieldOp fun hC => ?_
  refine encode_ite wordXYN_of_fieldOp fun hD => ?_
  refine encode_ite (fun h => (encode_decodeE _ _).trans (wordXKK_of_fieldOp h)) fun hE => ?_
  have hF : fieldOp w = 0xF := by bv_omega
  exact (encode_decodeF _ _).trans (wordXKK_of_fieldOp hF)

end Sys2Proof

/-! ### What every instruction does -/

namespace Sys2Proof.Machine

/-- Where an instruction of the state `s` may leave `pc` (R24, R122): at itself (R246, R270), behind itself, behind a
skipped instruction, at the target of a jump, or at a return address. -/
inductive ContinuesAt (s : State) : Word16 → Prop where
  | again : ContinuesAt s s.pc
  | behind : ContinuesAt s (s.pc + 2)
  | skipped : ContinuesAt s (s.pc + 2 + 2)
  | jump (nnn : Addr12) : ContinuesAt s (zext16Addr nnn)
  | indexedJump (nnn : Addr12) : ContinuesAt s (indexedTarget s nnn)
  | back {v : Word16} (h : v ∈ s.stack) : ContinuesAt s v

/-- The result is a next state: `s` with a cause recorded, or one in the frame of `f` with `pc` at an allowed place. -/
def Answers (f : Footprint) (s : State) (r : Result) : Prop :=
  ∃ t, r = .next t ∧ ((∃ c, t = { s with fault := some c }) ∨ Frame f s t ∧ ContinuesAt s t.pc)

section

variable {f : Footprint} {s t : State}

theorem answers_next (hf : Frame f s t) (hp : ContinuesAt s t.pc) : Answers f s (.next t) := ⟨t, rfl, .inr ⟨hf, hp⟩⟩

/-- An instruction that may fault answers when its success does (R270). -/
theorem answers_orFatal {o : Option State} (c : Fault) (h : ∀ t, o = some t → Frame f s t ∧ ContinuesAt s t.pc) :
    Answers f s (orFatal s c o) := by
  cases o with
  | none => exact ⟨_, rfl, .inl ⟨c, rfl⟩⟩
  | some t => exact ⟨t, rfl, .inr (h t rfl)⟩

end

section

variable (s : State)

theorem answers_advance : Answers {} s (.next s.advance) := answers_next (frame_advance s) .behind

theorem answers_setV (x : RegId) (v : Byte) : Answers { regs := [x] } s (.next (s.advance.setV x v)) :=
  answers_next (frame_setV s x v) .behind

theorem answers_setWithFlag (x : RegId) (v f : Byte) :
    Answers { regs := [x, VF] } s (.next (s.advance.setWithFlag x v f)) :=
  answers_next (frame_setWithFlag s x v f) .behind

theorem answers_skipIf (b : Bool) : Answers {} s (.next (s.advance.skipIf b)) := by
  refine answers_next (frame_skipIf s b) ?_
  cases b
  · exact .behind
  · exact .skipped

theorem answers_index (a : Word16) : Answers { index := true } s (.next { s.advance with I := a }) :=
  answers_next (by constructor <;> simp [State.getV, State.readByte]) .behind

/-- An append to the queue touches nothing else (R210, R212). -/
theorem answers_enqueue (d : DrawCommand) (c : Fault) :
    Answers { dq := true } s (orFatal s c (enqueue s.advance d)) := by
  refine answers_orFatal c fun t ht => ?_
  obtain ⟨-, rfl⟩ := enqueue_eq_some.mp ht
  exact ⟨by constructor <;> simp [State.getV, State.readByte], .behind⟩

theorem answers_ret : Answers { stack := true } s (execRet s) := by
  refine answers_orFatal _ fun t ht => ?_
  obtain ⟨v, rest, hs, rfl⟩ := popToPc_eq_some.mp ht
  rw [advance_stack] at hs
  exact ⟨by constructor <;> simp [State.getV, State.readByte], .back (hs ▸ List.mem_cons_self)⟩

theorem answers_call (nnn : Addr12) : Answers { stack := true } s (execCall nnn s) := by
  refine answers_orFatal _ fun t ht => ?_
  obtain ⟨u, hu, rfl⟩ := Option.map_eq_some_iff.mp ht
  obtain ⟨-, rfl⟩ := pushStack_eq_some.mp hu
  exact ⟨by constructor <;> simp [State.getV, State.readByte], .jump nnn⟩

theorem answers_rnd (x : RegId) (kk : Byte) : Answers { regs := [x], draws := true } s (execRnd x kk s) := by
  have h := frame_setV s x (Config.randomByte s.draws &&& kk)
  exact answers_next { h with draws := nofun } .behind

theorem answers_drw (x y : RegId) (n : Nibble) : Answers { dq := true } s (execDrw x y n s) := by
  unfold execDrw
  split
  · exact ⟨_, rfl, .inl ⟨_, rfl⟩⟩
  · exact answers_enqueue s _ _

/-- The key-wait keeps `pc` while it is unresolved, and moves behind itself when it completes (R246). -/
theorem answers_ldVxK (x : RegId) : Answers { regs := [x], latch := true } s (execLdVxK x s) := by
  have hstall : Answers { regs := [x], latch := true } s (.next s.advance.rollBack) :=
    answers_next (by constructor <;> simp) (by rw [rollBack_advance]; exact .again)
  unfold execLdVxK
  split
  · exact answers_next (by constructor <;> simp [State.rollBack, State.getV, State.readByte])
      (by simpa [State.rollBack] using .again)
  · exact hstall
  · exact hstall
  · exact answers_next { frame_setV s x (keyByte _) with latch := nofun } .behind

/-- A store leaves every byte outside it, and everything but memory (R11, R66). -/
theorem frame_memWrite {s t : State} {addr : Nat} {bs : List Byte} (h : memWrite s.advance addr bs = some t) :
    Frame { bytes := byteRange addr bs.length } s t ∧ t.pc = s.pc + 2 := by
  obtain ⟨-, rfl⟩ := memWrite_eq_some.mp h
  have hmem : byteRange addr bs.length = [] → Memory.writeBytes s.mem addr bs = s.mem := by
    cases bs with
    | nil => exact fun _ => rfl
    | cons b bs => simp [byteRange]
  exact ⟨by constructor <;> simp +contextual [State.getV, State.readByte, hmem, read_writeBytes_outside], rfl⟩

theorem answers_ldB (x : RegId) : Answers { bytes := byteRange s.I.toNat 3 } s (execLdB x s) := by
  refine answers_orFatal _ fun t ht => ?_
  obtain ⟨hf, hp⟩ := frame_memWrite ht
  exact ⟨hf, hp ▸ .behind⟩

theorem answers_storeBlock (x : RegId) :
    Answers { bytes := byteRange s.I.toNat (x.val + 1), index := true } s (execStoreBlock x s) := by
  refine answers_orFatal _ fun t ht => ?_
  obtain ⟨u, hu, rfl⟩ := Option.map_eq_some_iff.mp ht
  obtain ⟨hf, hp⟩ := frame_memWrite hu
  rw [length_getBlock] at hf
  exact ⟨{ hf with index := nofun }, by rw [advanceI_pc, hp]; exact .behind⟩

theorem answers_loadBlock (x : RegId) : Answers { regs := blockRegs x, index := true } s (execLoadBlock x s) := by
  refine answers_orFatal _ fun t ht => ?_
  obtain ⟨bs, hbs, rfl⟩ := Option.map_eq_some_iff.mp ht
  have hlen : bs.length = x.val + 1 := by
    rw [(memRead_eq_some.mp hbs).2, Memory.length_readBytes, blockCount]
  have hregs : ∀ r : RegId, r ∉ blockRegs x → bs.getD r (s.getV r) = s.getV r := fun r hr =>
    List.getD_eq_default _ _ (by rw [mem_blockRegs, Fin.le_def] at hr; omega)
  exact ⟨by constructor <;> simp_all, by simpa using .behind⟩

end

/-- What every instruction does: it answers a next state, which is the old one with a cause recorded, or lies in the
frame of the instruction's footprint with `pc` at an allowed place (R122, R124, R270). -/
theorem exec_answers (i : Instr) (s : State) : Answers (footprint i s) s (exec i s) := by
  cases i with
  | sys _ | unrec8 _ _ _ | unrecE _ _ | unrecF _ _ => exact answers_advance s
  | seImm _ _ | sneImm _ _ | seReg _ _ _ | sneReg _ _ _ | skp _ | sknp _ => exact answers_skipIf s _
  | ldImm x _ | addImm x _ | ldReg x _ | ldVxDT x => exact answers_setV s x _
  | orReg x _ | andReg x _ | xorReg x _ | addReg x _ | subReg x _ | shrReg x _ | subnReg x _ | shlReg x _ =>
    exact answers_setWithFlag s x _ _
  | ldI _ | addI _ | ldF _ => exact answers_index s _
  | jp nnn => exact answers_next (frame_jumpTo s _) (.jump nnn)
  | jpV0 nnn => exact answers_next (frame_jumpTo s _) (.indexedJump nnn)
  | ldDTVx _ => exact answers_next { frame_advance s with dt := nofun } .behind
  | ldSTVx _ => exact answers_next { frame_advance s with st := nofun } .behind
  | cls => exact answers_enqueue s _ _
  | ret => exact answers_ret s
  | call nnn => exact answers_call s nnn
  | rnd x kk => exact answers_rnd s x kk
  | drw x y n => exact answers_drw s x y n
  | ldVxK x => exact answers_ldVxK s x
  | ldB x => exact answers_ldB s x
  | storeBlock x => exact answers_storeBlock s x
  | loadBlock x => exact answers_loadBlock s x

theorem exec_total (i : Instr) (s : State) : ∃ t, exec i s = .next t :=
  (exec_answers i s).imp fun _ h => h.1

/-- Everything an executed instruction can do: raise a fault, or stay in its frame with `pc` at an allowed place. -/
theorem exec_cases {i : Instr} {s t : State} (h : exec i s = .next t) :
    (∃ c, t = { s with fault := some c }) ∨ Frame (footprint i s) s t ∧ ContinuesAt s t.pc := by
  obtain ⟨u, hu, hcases⟩ := exec_answers i s
  obtain rfl : u = t := Host.Outcome.next.inj (hu.symm.trans h)
  exact hcases

/-- Everything a step can do: nothing on a halted CORE, else the fetch fault or the instruction fetched (R120, R125). -/
theorem step_cases {s t : State} (h : step s = .next t) :
    (s.fault ≠ none ∧ t = s) ∨ (s.fault = none ∧ t = { s with fault := some .fetchOutOfBounds }) ∨
      ∃ w, s.fault = none ∧ fetch16 s = some w ∧ exec (decode w) s = .next t := by
  cases hf : s.fault with
  | some c => exact .inl ⟨nofun, (Host.Outcome.next.inj ((step_halted hf).symm.trans h)).symm⟩
  | none =>
    refine .inr ?_
    cases hw : fetch16 s with
    | none => exact .inl ⟨rfl, (Host.Outcome.next.inj ((step_fetch_none hf hw).symm.trans h)).symm⟩
    | some w => exact .inr ⟨w, rfl, rfl, (step_fetch_some hf hw).symm.trans h⟩

theorem step_total (s : State) : ∃ t, step s = .next t := by
  cases hf : s.fault with
  | some c => exact ⟨s, step_halted hf⟩
  | none =>
    cases hw : fetch16 s with
    | none => exact ⟨_, step_fetch_none hf hw⟩
    | some w => rw [step_fetch_some hf hw]; exact exec_total _ s

/-! ### What an instruction does to each field that the invariant speaks of -/

section

variable {i : Instr} {s t : State}

/-- Only the two stores write memory, and they write a run of bytes from `I` on (R196, R198). -/
theorem exec_mem_cases (h : exec i s = .next t) (hf : Frame (footprint i s) s t) :
    t.mem = s.mem ∨ ∃ bs, t.mem = Memory.writeBytes s.mem s.I.toNat bs := by
  cases i with
  | ldB x =>
    obtain hw | ⟨-, rfl⟩ := orFatal_cases h
    · obtain ⟨-, rfl⟩ := memWrite_eq_some.mp hw
      exact .inr ⟨_, rfl⟩
    · exact .inl rfl
  | storeBlock x =>
    obtain hw | ⟨-, rfl⟩ := orFatal_cases h
    · obtain ⟨u, hu, rfl⟩ := Option.map_eq_some_iff.mp hw
      obtain ⟨-, rfl⟩ := memWrite_eq_some.mp hu
      exact .inr ⟨_, rfl⟩
    · exact .inl rfl
  | _ => exact .inl (hf.mem rfl)

/-- The stack is kept, or `CALL` pushes the next address onto one with room, or `RET` pops its top (R140, R146). -/
theorem exec_stack_cases (h : exec i s = .next t) (hf : Frame (footprint i s) s t) :
    t.stack = s.stack ∨ (s.limits.stackDepth ≠ some s.stack.length ∧ t.stack = (s.pc + 2) :: s.stack) ∨
      ∃ v, s.stack = v :: t.stack := by
  cases i with
  | call nnn =>
    obtain hp | ⟨-, rfl⟩ := orFatal_cases h
    · obtain ⟨u, hu, rfl⟩ := Option.map_eq_some_iff.mp hp
      obtain ⟨hroom, rfl⟩ := pushStack_eq_some.mp hu
      exact .inr (.inl ⟨hroom, rfl⟩)
    · exact .inl rfl
  | ret =>
    obtain hp | ⟨-, rfl⟩ := orFatal_cases h
    · obtain ⟨v, rest, hs, rfl⟩ := popToPc_eq_some.mp hp
      exact .inr (.inr ⟨v, hs⟩)
    · exact .inl rfl
  | _ => exact .inl (hf.stack rfl)

/-- The rows a `DRW` reads are as many as its 4-bit count says, so its command is one the spec allows (R214). -/
theorem drawCommand_wf_of_memRead {addr : Nat} {n : Nibble} {rows : List Byte} (h : memRead s addr n.toNat = some rows)
    (ox : Fin 64) (oy : Fin 32) : (DrawCommand.draw ox oy rows).wf = true := by
  have hlen : rows.length = n.toNat := by rw [(memRead_eq_some.mp h).2, Memory.length_readBytes]
  have hn : n.toNat < 16 := n.isLt
  exact decide_eq_true (by omega)

/-- The queue is kept, or an allowed command goes to the back of one with room (R210, R212, R214). -/
theorem exec_dq_cases (h : exec i s = .next t) (hf : Frame (footprint i s) s t) :
    t.dq = s.dq ∨ (s.limits.drawqDepth ≠ some s.dq.length ∧ ∃ d : DrawCommand, d.wf = true ∧ t.dq = s.dq ++ [d]) := by
  cases i with
  | cls =>
    obtain he | ⟨-, rfl⟩ := orFatal_cases h
    · obtain ⟨hroom, rfl⟩ := enqueue_eq_some.mp he
      exact .inr ⟨hroom, .clear, rfl, rfl⟩
    · exact .inl rfl
  | drw x y n =>
    change execDrw x y n s = .next t at h
    unfold execDrw at h
    split at h
    · cases h; exact .inl rfl
    · next rows hrows =>
      obtain he | ⟨-, rfl⟩ := orFatal_cases h
      · obtain ⟨hroom, rfl⟩ := enqueue_eq_some.mp he
        exact .inr ⟨hroom, _, drawCommand_wf_of_memRead hrows _ _, rfl⟩
      · exact .inl rfl
  | _ => exact .inl (hf.dq rfl)

/-- Only the key-wait changes the latch (R246). -/
theorem exec_latch_cases (hf : Frame (footprint i s) s t) : t.latch = s.latch ∨ ∃ x, i = .ldVxK x := by
  cases i with
  | ldVxK x => exact .inr ⟨x, rfl⟩
  | _ => exact .inl (hf.latch rfl)

/-- A key-wait that is still waiting afterwards stands at the same `pc` of the same memory (R246, R247). -/
theorem exec_ldVxK_stalls {x : RegId} (h : exec (.ldVxK x) s = .next t) (ht : t.latch ≠ .idle) :
    t.pc = s.pc ∧ t.mem = s.mem := by
  change execLdVxK x s = .next t at h
  unfold execLdVxK at h
  split at h <;> cases h
  · exact ⟨by simp [State.rollBack], rfl⟩
  · exact ⟨by simp, by simp⟩
  · exact ⟨by simp, by simp⟩
  · exact absurd rfl ht

end

/-! ### The invariant -/

section

variable {s t : State}

/-- A change of none of the fields of the invariant but the queue, which may lose commands at its front, and the
latch, which does not begin to wait, keeps the invariant. -/
theorem Inv.of_unchanged (hs : Inv s) (hm : t.mem = s.mem) (hp : t.pc = s.pc) (hst : t.stack = s.stack)
    (hlim : t.limits = s.limits) (hq : t.dq <:+ s.dq) (hl : t.latch ≠ .idle → s.latch ≠ .idle) : Inv t where
  mem := hm ▸ hs.mem
  pc := hp ▸ hs.pc
  stack := hst ▸ hs.stack
  depth := hst ▸ hlim ▸ hs.depth
  commands c hc := hs.commands c (hq.subset hc)
  queue d hd := hq.length_le.trans (hs.queue d (hlim ▸ hd))
  wait h := fetch16_congr hp hm ▸ hs.wait (hl h)

/-- A fault leaves every field of the invariant (R270). -/
theorem Inv.withFault (hs : Inv s) (c : Fault) : Inv { s with fault := some c } :=
  hs.of_unchanged rfl rfl rfl rfl List.suffix_rfl id

/-- No instruction fetched from memory leaves `pc` above `0xFFF + 0xFF` (R24). -/
theorem ContinuesAt.toNat_le {a : Word16} (h : ContinuesAt s a) (hs : Inv s) (hpc : s.pc.toNat ≤ 4094) :
    a.toNat ≤ 0x10FE := by
  cases h with
  | again => exact hs.pc
  | behind => bv_omega
  | skipped => bv_omega
  | jump nnn => rw [toNat_zext16Addr]; omega
  | indexedJump nnn => rw [toNat_indexedTarget]; omega
  | back hv => have := hs.stack a hv; omega

variable {w : Word16}

theorem exec_keeps_wf {i : Instr} (hs : Inv s) (h : exec i s = .next t) (hf : Frame (footprint i s) s t) :
    Memory.wf t.mem = true := by
  obtain hm | ⟨bs, hm⟩ := exec_mem_cases h hf
  · exact hm ▸ hs.mem
  · exact hm ▸ Memory.wf_writeBytes hs.mem _ bs

theorem exec_keeps_returnAddresses {i : Instr} (hs : Inv s) (hpc : s.pc.toNat ≤ 4094) (h : exec i s = .next t)
    (hf : Frame (footprint i s) s t) : ∀ v ∈ t.stack, v.toNat ≤ 4096 := by
  obtain hst | ⟨-, hst⟩ | ⟨v, hst⟩ := exec_stack_cases h hf
  · exact hst ▸ hs.stack
  · rw [hst, List.forall_mem_cons]
    exact ⟨by bv_omega, hs.stack⟩
  · exact (List.forall_mem_cons.mp (hst ▸ hs.stack)).2

theorem exec_keeps_stackDepth {i : Instr} (hs : Inv s) (h : exec i s = .next t) (hf : Frame (footprint i s) s t) :
    ∀ d, t.limits.stackDepth = some d → t.stack.length ≤ d := by
  intro d hd
  rw [hf.limits] at hd
  have hlen := hs.depth d hd
  obtain hst | ⟨hroom, hst⟩ | ⟨v, hst⟩ := exec_stack_cases h hf
  · exact hst ▸ hlen
  · have hne : d ≠ s.stack.length := by rintro rfl; exact hroom hd
    rw [hst, List.length_cons]; omega
  · rw [hst, List.length_cons] at hlen; omega

theorem exec_keeps_commands {i : Instr} (hs : Inv s) (h : exec i s = .next t) (hf : Frame (footprint i s) s t) :
    ∀ c ∈ t.dq, c.wf = true := by
  obtain hq | ⟨-, d, hd, hq⟩ := exec_dq_cases h hf
  · exact hq ▸ hs.commands
  · rw [hq, List.forall_mem_append]
    exact ⟨hs.commands, List.forall_mem_singleton.mpr hd⟩

theorem exec_keeps_drawqDepth {i : Instr} (hs : Inv s) (h : exec i s = .next t) (hf : Frame (footprint i s) s t) :
    ∀ d, t.limits.drawqDepth = some d → t.dq.length ≤ d := by
  intro d hd
  rw [hf.limits] at hd
  have hlen := hs.queue d hd
  obtain hq | ⟨hroom, c, -, hq⟩ := exec_dq_cases h hf
  · exact hq ▸ hlen
  · have hne : d ≠ s.dq.length := by rintro rfl; exact hroom hd
    rw [hq, List.length_append, List.length_singleton]; omega

/-- While the latch waits, a key-wait stands at `pc`: only a key-wait makes the latch wait, and it keeps `pc` until the
wait is over (R246, R247). -/
theorem exec_keeps_wait (hs : Inv s) (hw : fetch16 s = some w) (h : exec (decode w) s = .next t)
    (hf : Frame (footprint (decode w) s) s t) (ht : t.latch ≠ .idle) : ∃ x, fetch16 t = some (encode (.ldVxK x)) := by
  have hx : ∃ x, decode w = .ldVxK x := by
    obtain hl | hx := exec_latch_cases hf
    · obtain ⟨x, hwait⟩ := hs.wait (hl ▸ ht)
      obtain rfl := Option.some.inj (hw.symm.trans hwait)
      exact ⟨x, decode_encode_ldVxK x⟩
    · exact hx
  obtain ⟨x, hx⟩ := hx
  obtain ⟨hp, hm⟩ := exec_ldVxK_stalls (hx ▸ h) ht
  exact ⟨x, by rw [fetch16_congr hp hm, hw, ← hx, encode_decode]⟩

theorem exec_keeps_inv (hs : Inv s) (hw : fetch16 s = some w) (h : exec (decode w) s = .next t) : Inv t := by
  have hpc : s.pc.toNat ≤ 4094 := (fetch16_eq_some.mp hw).1
  obtain ⟨c, rfl⟩ | ⟨hf, hp⟩ := exec_cases h
  · exact hs.withFault c
  · exact
      { mem := exec_keeps_wf hs h hf
        pc := hp.toNat_le hs hpc
        stack := exec_keeps_returnAddresses hs hpc h hf
        depth := exec_keeps_stackDepth hs h hf
        commands := exec_keeps_commands hs h hf
        queue := exec_keeps_drawqDepth hs h hf
        wait := exec_keeps_wait hs hw h hf }

theorem step_keeps_inv (hs : Inv s) (h : step s = .next t) : Inv t := by
  obtain ⟨-, rfl⟩ | ⟨-, rfl⟩ | ⟨w, -, hw, hexec⟩ := step_cases h
  · exact hs
  · exact hs.withFault _
  · exact exec_keeps_inv hs hw hexec

/-! ### Every transaction keeps the invariant (R5, R6) -/

/-- `Reset` establishes the invariant in any state, when it starts at an allowed `pc` (R300, R301). -/
theorem load_meets_inv {b : Config.Boot} {image : List Byte} (hb : b.resetPc.toNat ≤ 0x10FE)
    (h : State.load b image s = some t) : Inv t := by
  unfold State.load at h
  split at h
  · cases h
  · obtain rfl := Option.some.inj h
    exact
      { mem := wf_loadMemory b image
        pc := hb
        stack := nofun
        depth := fun d _ => Nat.zero_le d
        commands := nofun
        queue := fun d _ => Nat.zero_le d
        wait := fun hl => absurd rfl hl }

theorem timerTick_keeps_inv (hs : Inv s) : Inv (timerTick s) :=
  hs.of_unchanged rfl rfl rfl rfl List.suffix_rfl id

/-- A key event does not make an idle latch wait (R259). -/
theorem keyEvent_keeps_inv (hs : Inv s) (k : Key) (pressed : Bool) : Inv (keyEvent k pressed s) :=
  hs.of_unchanged rfl rfl rfl rfl List.suffix_rfl fun hl hidle => hl (by rw [keyEvent_latch, hidle]; rfl)

/-- A poll takes at most the front command off the queue (R218). -/
theorem drawPoll_keeps_inv (hs : Inv s) : Inv (drawPoll s).2 := by
  unfold drawPoll
  split
  · exact hs
  · next c rest hq => exact hs.of_unchanged rfl rfl rfl rfl (hq ▸ List.suffix_cons c rest) id

theorem setCollision_keeps_inv (hs : Inv s) (b : Bool) : Inv (setCollision b s) :=
  hs.of_unchanged rfl rfl rfl rfl List.suffix_rfl id

/-- The transaction `InstrCycle` always takes place: it leaves the state that the step gives and replies with the
diagnostic (R6, R277). -/
theorem transact_instrCycle (h : step s = .next t) :
    transact .instrCycle s = some (t, .diagnostic (diagnostic s)) := by
  have hcycle : instrCycle s = .next t := h
  simp only [transact, hcycle]

theorem transact_keeps_inv {tr : Transaction} {r : Reply} (htr : tr.startsBelow) (hs : Inv s)
    (h : transact tr s = some (t, r)) : Inv t := by
  cases tr with
  | reset b image =>
    obtain ⟨u, hu, he⟩ := Option.map_eq_some_iff.mp h
    cases he
    exact load_meets_inv htr hu
  | instrCycle =>
    obtain ⟨u, hu⟩ := step_total s
    cases (transact_instrCycle hu).symm.trans h
    exact step_keeps_inv hs hu
  | timerTick => cases h; exact timerTick_keeps_inv hs
  | keyEvent k pressed => cases h; exact keyEvent_keeps_inv hs k pressed
  | drawPoll => cases h; exact drawPoll_keeps_inv hs
  | setCollision b => cases h; exact setCollision_keeps_inv hs b
  | soundTimer => cases h; exact hs
  | waiting => cases h; exact hs

end

/-- Settles O59, by induction on the schedule: each transaction keeps the invariant. -/
theorem everyScheduleKeepsTheInvariant : Obligations.EveryScheduleKeepsTheInvariant := by
  unfold Obligations.EveryScheduleKeepsTheInvariant
  intro ts
  induction ts with
  | nil =>
    intro s t _ hs h
    cases h
    exact hs
  | cons tr ts ih =>
    intro s t hts hs h
    obtain ⟨htr, hts⟩ := List.forall_mem_cons.mp hts
    unfold runTransactions at h
    split at h
    · cases h
    · next u r hu => exact ih u t hts (transact_keeps_inv htr hs hu) h

/-- Settles O10: the only other outcome of a cycle, a state in the frame of the instruction, has no fault. -/
theorem faultingCycleChangesOnlyTheFaultField : Obligations.FaultingCycleChangesOnlyTheFaultField := by
  unfold Obligations.FaultingCycleChangesOnlyTheFaultField
  intro s t hrun h hfault
  obtain ⟨hhalt, -⟩ | ⟨-, rfl⟩ | ⟨w, -, -, hexec⟩ := step_cases h
  · exact absurd hrun hhalt
  · rfl
  · obtain ⟨c, rfl⟩ | ⟨hf, -⟩ := exec_cases hexec
    · rfl
    · exact absurd (hf.fault.trans hrun) hfault

/-! ### The diagnostic (R126, R277) -/

/-- An instruction of rule R126 only advances `pc`. -/
theorem exec_unrecognised {i : Instr} (hi : i.unrecognised = true) (s : State) : exec i s = .next s.advance := by
  cases i with
  | sys _ | unrec8 _ _ _ | unrecE _ _ | unrecF _ _ => rfl
  | _ => cases hi

/-- A running CORE that fetches a word reports it when it is unrecognised (R126). -/
theorem diagnostic_fetch_some {s : State} {w : Word16} (hrun : s.fault = none) (hw : fetch16 s = some w) :
    diagnostic s = if (decode w).unrecognised = true then some ⟨s.pc, w⟩ else none := by
  simp only [diagnostic, hrun, hw]

/-- A cycle that fetches nothing reports nothing (R125, R271). -/
theorem diagnostic_fetch_none {s : State} (h : s.fault ≠ none ∨ fetch16 s = none) : diagnostic s = none := by
  cases hf : s.fault with
  | some c => simp only [diagnostic, hf]
  | none =>
    have hw : fetch16 s = none := h.resolve_left (not_not_intro hf)
    simp only [diagnostic, hf, hw]

/-- Settles O14, by the lemmas about the unrecognised instructions, the diagnostic and the transaction. -/
theorem unrecognisedWordsOnlyAdvanceAndReport : Obligations.UnrecognisedWordsOnlyAdvanceAndReport := by
  unfold Obligations.UnrecognisedWordsOnlyAdvanceAndReport
  refine ⟨fun i s hi => ⟨s.advance, exec_unrecognised hi s, rfl, frame_advance s⟩,
    fun s w hrun hw => diagnostic_fetch_some hrun hw, fun s h => diagnostic_fetch_none h, fun s => ?_⟩
  obtain ⟨t, ht⟩ := step_total s
  exact ⟨t, ht, transact_instrCycle ht⟩

end Sys2Proof.Machine
end

section
/-! PROOFS of the family `10_state.md`: the invariant over a step and at reset, the frame of every instruction, the
draw of `RND`, what a fault outlasts (R276), and what `Reset` leaves (R40, R300 to R302). -/

namespace Sys2Proof.Machine

/-! ### One instruction, one step -/

/-- Settles O58: nothing on a halted CORE, the fetch fault and the instruction fetched each keep the invariant. -/
theorem everyStepKeepsTheInvariant : Obligations.EveryStepKeepsTheInvariant := by
  unfold Obligations.EveryStepKeepsTheInvariant
  exact fun _ _ hs h => step_keeps_inv hs h

/-- Settles O13, by what every instruction does. -/
theorem everyInstructionKeepsWhatItsFootprintLeavesOut :
    Obligations.EveryInstructionKeepsWhatItsFootprintLeavesOut := by
  unfold Obligations.EveryInstructionKeepsWhatItsFootprintLeavesOut
  intro i s t h
  obtain hfault | ⟨hframe, -⟩ := exec_cases h
  · exact .inl hfault
  · exact .inr hframe

@[simp] theorem getV_rndWith (rand : Byte) (x : RegId) (kk : Byte) (s : State) :
    (rndWith rand x kk s).getV x = rand &&& kk :=
  getV_setV_same _ _ _

/-- Settles O29: `RND` is `rndWith` of the next free value, and counts it as used up. -/
theorem randomAndsTheDrawWithTheImmediate : Obligations.RandomAndsTheDrawWithTheImmediate := by
  unfold Obligations.RandomAndsTheDrawWithTheImmediate
  intro x kk s
  refine ⟨?_, fun rand => getV_rndWith rand x kk s⟩
  have hV := getV_rndWith (Config.randomByte s.draws) x kk s
  have hmask : Config.randomByte s.draws &&& kk &&& ~~~kk = 0 := by
    rw [BitVec.and_assoc, BitVec.and_not_self]
    exact BitVec.and_zero
  have hframe : Frame { regs := [x] } s (rndWith (Config.randomByte s.draws) x kk s) := frame_setV s x _
  exact ⟨_, rfl, hV, (congrArg (· &&& ~~~kk) hV).trans hmask, rfl, rfl, { hframe with draws := nofun }⟩

/-! ### Schedules of transactions (R5, R7) -/

/-- What every transaction of a schedule keeps, the schedule keeps. -/
theorem runTransactions_keeps {P : State → Prop} {ts : List Transaction} {s t : State}
    (hkeep : ∀ tr ∈ ts, ∀ u v r, P u → transact tr u = some (v, r) → P v) (hs : P s)
    (h : runTransactions ts s = some t) : P t := by
  induction ts generalizing s with
  | nil => exact Option.some.inj h ▸ hs
  | cons tr ts ih =>
    obtain ⟨htr, hts⟩ := List.forall_mem_cons.mp hkeep
    unfold runTransactions at h
    split at h
    · cases h
    · next u r hu => exact ih hts (htr s u r hs hu) h

@[simp] theorem drawPoll_fault (s : State) : (drawPoll s).2.fault = s.fault := by
  unfold drawPoll
  split <;> rfl

/-- No transaction but `Reset` clears or changes a fault: the cycle does nothing on a halted CORE, and the others do
not write `fault` (R276). -/
theorem transact_keeps_fault {tr : Transaction} {s t : State} {r : Reply} {c : Fault}
    (htr : ∀ b image, tr ≠ .reset b image) (hs : s.fault = some c) (h : transact tr s = some (t, r)) :
    t.fault = some c := by
  cases tr with
  | reset b image => exact absurd rfl (htr b image)
  | instrCycle => cases (transact_instrCycle (step_halted hs)).symm.trans h; exact hs
  | drawPoll => cases h; exact (drawPoll_fault s).trans hs
  | timerTick | keyEvent _ _ | setCollision _ | soundTimer | waiting => cases h; exact hs

/-- Settles O53: every transaction of the schedule keeps the fault. -/
theorem onlyResetClearsAFault : Obligations.OnlyResetClearsAFault := by
  unfold Obligations.OnlyResetClearsAFault
  intro ts s t c hts hs h
  refine runTransactions_keeps (P := fun u => u.fault = some c) (fun tr htr u v r hu hv => ?_) hs h
  exact transact_keeps_fault (fun b image he => hts b image (he ▸ htr)) hu hv

/-! ### Reset (R40, R300 to R302) -/

section

variable (b : Config.Boot) {image : List Byte} (s : State)

/-- `Reset` takes an image that fits: memory is loaded, `pc` is `RESET_PC`, the parameters and the count of draws stay,
everything else is as after reset (R300, R301). -/
theorem load_of_length_le (h : image.length ≤ Config.maxImage) :
    State.load b image s = some
      { State.reset with mem := loadMemory b image, pc := b.resetPc, limits := s.limits, draws := s.draws } :=
  if_neg (Nat.not_lt.mpr h)

/-- `Reset` does not take a longer image (R302). -/
theorem load_of_length_gt (h : Config.maxImage < image.length) : State.load b image s = none := if_pos h

end

/-- Memory after `Reset` of the empty image with the default font lists no byte: every address reads as it does
unlisted (R40; log 13). -/
theorem loadMemory_default : loadMemory defaultBoot [] = [] := by
  refine Memory.ext_of_read (wf_loadMemory _ _) Memory.wf_nil fun a => ?_
  have hnil : Memory.read [] a = Memory.initialByte a := rfl
  rw [read_loadMemory _ (Nat.zero_le _), hnil]
  split
  · rfl
  · next ha => rw [initialByte_above_font (Nat.le_of_not_lt ha)]; simp

/-- The state after reset is what `Reset` of the empty image with the default parameters makes (R40). -/
theorem load_default : State.load defaultBoot [] State.reset = some State.reset := by
  rw [load_of_length_le _ _ (Nat.zero_le _), loadMemory_default]
  rfl

/-- Settles O57: the reset state is one that `Reset` makes, with `pc` at 0x200. -/
theorem resetStateMeetsTheInvariant : Obligations.ResetStateMeetsTheInvariant := by
  unfold Obligations.ResetStateMeetsTheInvariant
  exact load_meets_inv (by decide) load_default

/-- Settles O54: `Reset` by the length of the image, memory by the ranges of `read_loadMemory`. -/
theorem resetLoadsFontAndImage : Obligations.ResetLoadsFontAndImage := by
  unfold Obligations.ResetLoadsFontAndImage
  refine ⟨load_default, rfl, rfl, pixel_blank, fun b image y => ⟨fun h => ?_, fun t h => ?_⟩,
    fun b image s => ⟨load_of_length_gt b s, fun hi => ⟨_, load_of_length_le b s hi, ?_⟩⟩⟩
  · exact Option.map_eq_none_iff.mpr h
  · exact ⟨_, system_load_eq_some.mpr ⟨t, h, rfl⟩, rfl, pixel_blank⟩
  · have hread := read_loadMemory b hi
    refine ⟨fun a ha => ?font, fun a ha ha' => ?between, fun i hi' => ?inImage, fun a ha _ => ?behind,
      fun x => ?registers, rfl, rfl, rfl, rfl, rfl, fun k => ?keys, rfl, rfl, rfl⟩
    case font => exact (hread a).trans (if_pos ha)
    case between => exact (hread a).trans (by rw [if_neg (by omega), if_neg (by omega)])
    case inImage =>
      refine (hread (0x200 + i)).trans ?_
      rw [if_neg (by omega), if_pos (by omega), Nat.add_sub_cancel_left]
    case behind => exact (hread a).trans (by rw [if_neg (by omega), if_neg (by omega)])
    case registers => simp [State.getV, State.reset]
    case keys => simp [State.keyDown, State.reset]

end Sys2Proof.Machine
end

section
/-! PROOFS of the family `20_memory.md`: what the block store leaves in memory (R198), and that the next fetch sees it,
high byte first (R63, R72). -/

namespace Sys2Proof.Machine

section

variable {x : RegId} {s t : State}

/-- A block store that raises no fault: the block fits in memory, and the next state holds it from `I` on (R11, R198). -/
theorem execStoreBlock_eq_next (h : execStoreBlock x s = .next t) (ht : t.fault = none) :
    s.I.toNat + (s.getBlock x).length ≤ Config.memSize ∧
      t = { s.advance with mem := Memory.writeBytes s.mem s.I.toNat (s.getBlock x) }.advanceI x := by
  obtain hstored | ⟨-, rfl⟩ := orFatal_cases h
  · obtain ⟨u, hu, rfl⟩ := Option.map_eq_some_iff.mp hstored
    obtain ⟨hfits, rfl⟩ := memWrite_eq_some.mp hu
    exact ⟨hfits.resolve_left (by simp), rfl⟩
  · cases ht

/-- After a block store that raises no fault, the byte at `I + i` is `V[i]` (R198). -/
theorem readByte_execStoreBlock (hmem : Memory.wf s.mem = true) (h : execStoreBlock x s = .next t)
    (ht : t.fault = none) {i : RegId} (hi : i ≤ x) : t.readByte (s.I.toNat + i.val) = s.getV i := by
  obtain ⟨hfits, rfl⟩ := execStoreBlock_eq_next h ht
  have hin : s.I.toNat ≤ s.I.toNat + i.val ∧ s.I.toNat + i.val < s.I.toNat + (s.getBlock x).length := by
    rw [Fin.le_def] at hi
    rw [length_getBlock]; omega
  calc Memory.read (Memory.writeBytes s.mem s.I.toNat (s.getBlock x)) (s.I.toNat + i.val)
    _ = (s.getBlock x).getD i.val 0 := by
      rw [Memory.read_writeBytes hmem hfits, if_pos hin, Nat.add_sub_cancel_left]
    _ = s.getV i := getD_getBlock s x i.val i.isLt hi 0

end

/-- Settles O36: the fetch at `pc + 2 = I` reads the first two bytes of the stored block. -/
theorem nextFetchReadsWhatWasStored : Obligations.NextFetchReadsWhatWasStored := by
  unfold Obligations.NextFetchReadsWhatWasStored
  intro x s t hmem _ hx hI _ h ht
  obtain ⟨hfits, hnext⟩ := execStoreBlock_eq_next h ht
  have hpc : t.pc = s.I := by rw [hnext, hI]; rfl
  have hhigh : t.readByte s.I.toNat = s.getV 0 := readByte_execStoreBlock hmem h ht (Fin.zero_le x)
  have hlow : t.readByte (s.I.toNat + 1) = s.getV 1 := readByte_execStoreBlock hmem h ht (i := 1) hx
  have hbound : s.I.toNat ≤ 4094 := by
    rw [length_getBlock, Config.memSize] at hfits; omega
  refine fetch16_eq_some.mpr ⟨hpc ▸ hbound, ?_⟩
  rw [hpc, hhigh, hlow, ← toNat_wordOfBytes, BitVec.ofNat_toNat, BitVec.setWidth_eq]

end Sys2Proof.Machine
end

section
/-! PROOFS of the family `30_encoding.md`: the fields of a word (R91), what the decoder gives in each selector space
(R94, R97), decoding and encoding as inverses (R98), the opcode table (R99), and the register skips (R150, R151). -/

namespace Sys2Proof

/-! ### Fields of a word by bits (R91) -/

section

variable (w : Word16) (i : Nat)

theorem getLsbD_fieldOp : (fieldOp w).getLsbD i = (decide (i < 4) && w.getLsbD (12 + i)) :=
  BitVec.getLsbD_extractLsb' _ _ _ _

theorem getLsbD_fieldX : (regField (fieldX w)).getLsbD i = (decide (i < 4) && w.getLsbD (8 + i)) :=
  BitVec.getLsbD_extractLsb' _ _ _ _

theorem getLsbD_fieldY : (regField (fieldY w)).getLsbD i = (decide (i < 4) && w.getLsbD (4 + i)) :=
  BitVec.getLsbD_extractLsb' _ _ _ _

theorem getLsbD_fieldN : (fieldN w).getLsbD i = (decide (i < 4) && w.getLsbD i) := by
  rw [fieldN, BitVec.getLsbD_extractLsb', Nat.zero_add]

theorem getLsbD_fieldKK : (fieldKK w).getLsbD i = (decide (i < 8) && w.getLsbD i) := by
  rw [fieldKK, BitVec.getLsbD_extractLsb', Nat.zero_add]

theorem getLsbD_fieldNNN : (fieldNNN w).getLsbD i = (decide (i < 12) && w.getLsbD i) := by
  rw [fieldNNN, BitVec.getLsbD_extractLsb', Nat.zero_add]

end

/-- Settles O4, field by field. -/
theorem fieldsAreTheNamedBits : Obligations.FieldsAreTheNamedBits := by
  unfold Obligations.FieldsAreTheNamedBits
  exact fun w i => ⟨getLsbD_fieldOp w i, getLsbD_fieldX w i, getLsbD_fieldY w i, getLsbD_fieldN w i,
    getLsbD_fieldKK w i, getLsbD_fieldNNN w i⟩

/-- Settles O3, by running the decoder. -/
theorem writtenOutWordsDecodeToTheirInstructions : Obligations.WrittenOutWordsDecodeToTheirInstructions := by
  unfold Obligations.WrittenOutWordsDecodeToTheirInstructions
  decide

/-! ### The four selector spaces (R94, R97) -/

section

variable {w : Word16}

theorem decode_of_op_0 (h : fieldOp w = 0x0) : decode w = decode0 (fieldNNN w) := by simp [decode, h]

theorem decode_of_op_8 (h : fieldOp w = 0x8) : decode w = decode8 (fieldX w) (fieldY w) (fieldN w) := by
  simp [decode, h]

theorem decode_of_op_E (h : fieldOp w = 0xE) : decode w = decodeE (fieldX w) (fieldKK w) := by simp [decode, h]

theorem decode_of_op_F (h : fieldOp w = 0xF) : decode w = decodeF (fieldX w) (fieldKK w) := by simp [decode, h]

end

section

variable {x y : RegId} {n : Nibble} {kk : Byte} {nnn : Addr12}

theorem decode0_of_unnamed (h : nnn ∉ selectors0) : decode0 nnn = .sys nnn := by
  simp_all [decode0, selectors0]

theorem decode8_of_unnamed (h : n ∉ selectors8) : decode8 x y n = .unrec8 x y n := by
  simp_all [decode8, selectors8]

theorem decodeE_of_unnamed (h : kk ∉ selectorsE) : decodeE x kk = .unrecE x kk := by
  simp_all [decodeE, selectorsE]

theorem decodeF_of_unnamed (h : kk ∉ selectorsF) : decodeF x kk = .unrecF x kk := by
  simp_all [decodeF, selectorsF]

/-! A named selector decodes to an instruction whose row tests that selector (R95, R99). -/

theorem mask_decode0 (h : nnn ∈ selectors0) : (opcodeRow (decode0 nnn)).mask = 0xFFFF := by
  simp only [selectors0, List.mem_cons, List.not_mem_nil, or_false] at h
  obtain rfl | rfl := h <;> rfl

theorem mask_decode8 (h : n ∈ selectors8) : (opcodeRow (decode8 x y n)).mask = 0xF00F := by
  simp only [selectors8, List.mem_cons, List.not_mem_nil, or_false] at h
  obtain rfl | rfl | rfl | rfl | rfl | rfl | rfl | rfl | rfl := h <;> rfl

theorem mask_decodeE (h : kk ∈ selectorsE) : (opcodeRow (decodeE x kk)).mask = 0xF0FF := by
  simp only [selectorsE, List.mem_cons, List.not_mem_nil, or_false] at h
  obtain rfl | rfl := h <;> rfl

theorem mask_decodeF (h : kk ∈ selectorsF) : (opcodeRow (decodeF x kk)).mask = 0xF0FF := by
  simp only [selectorsF, List.mem_cons, List.not_mem_nil, or_false] at h
  obtain rfl | rfl | rfl | rfl | rfl | rfl | rfl | rfl | rfl := h <;> rfl

end

/-! ### Decoding an encoded instruction -/

/-- Decoding inverts encoding: outside the selector spaces by `op` alone, inside by the selector (R97, R98). -/
theorem decode_encode {i : Instr} (hi : i.wellFormed = true) : decode (encode i) = i := by
  cases i with
  | cls | ret => exact decode_of_op_0 (fieldOp_wordNNN _ _)
  | sys nnn =>
    have hn : nnn ∉ selectors0 := by simpa [Instr.wellFormed] using hi
    simpa [encode, decode_of_op_0] using decode0_of_unnamed hn
  | unrec8 x y n =>
    have hn : n ∉ selectors8 := by simpa [Instr.wellFormed] using hi
    simpa [encode, decode_of_op_8] using decode8_of_unnamed hn
  | unrecE x kk =>
    have hn : kk ∉ selectorsE := by simpa [Instr.wellFormed] using hi
    simpa [encode, decode_of_op_E] using decodeE_of_unnamed hn
  | unrecF x kk =>
    have hn : kk ∉ selectorsF := by simpa [Instr.wellFormed] using hi
    simpa [encode, decode_of_op_F] using decodeF_of_unnamed hn
  | ldReg _ _ | orReg _ _ | andReg _ _ | xorReg _ _ | addReg _ _ | subReg _ _ | shrReg _ _ | subnReg _ _ | shlReg _ _ =>
    simp [encode, decode_of_op_8, decode8]
  | skp _ | sknp _ => simp [encode, decode_of_op_E, decodeE]
  | ldVxDT _ | ldVxK _ | ldDTVx _ | ldSTVx _ | addI _ | ldF _ | ldB _ | storeBlock _ | loadBlock _ =>
    simp [encode, decode_of_op_F, decodeF]
  | jp _ | call _ | ldI _ | jpV0 _ | seImm _ _ | sneImm _ _ | ldImm _ _ | addImm _ _ | rnd _ _ | seReg _ _ _
    | sneReg _ _ _ | drw _ _ _ => simp [encode, decode]

/-- Settles O1, by the selector spaces. -/
theorem decodingAnEncodedInstructionGivesItBack : Obligations.DecodingAnEncodedInstructionGivesItBack := by
  unfold Obligations.DecodingAnEncodedInstructionGivesItBack
  exact fun _ hi => decode_encode hi

/-! ### The unrecognised words (R97, R126) -/

theorem fieldOp_encode_of_unrecognised {i : Instr} (hi : i.unrecognised = true) :
    fieldOp (encode i) = 0x0 ∨ fieldOp (encode i) = 0x8 ∨ fieldOp (encode i) = 0xE ∨ fieldOp (encode i) = 0xF := by
  cases i with
  | sys _ | unrec8 _ _ _ | unrecE _ _ | unrecF _ _ => simp [encode]
  | _ => cases hi

/-- The mask of an unrecognised instruction's row leaves the selector free (R99). -/
theorem mask_of_unrecognised {i : Instr} (hi : i.unrecognised = true) : (opcodeRow i).mask = 0xF000 := by
  cases i with
  | sys _ | unrec8 _ _ _ | unrecE _ _ | unrecF _ _ => rfl
  | _ => cases hi

/-- A word is unrecognised exactly when its `op` has a selector space and its selector is none of the named ones. -/
theorem unrecognised_decode (w : Word16) : (decode w).unrecognised = true ↔
    (fieldOp w = 0x0 ∧ fieldNNN w ∉ selectors0) ∨ (fieldOp w = 0x8 ∧ fieldN w ∉ selectors8) ∨
    (fieldOp w = 0xE ∧ fieldKK w ∉ selectorsE) ∨ (fieldOp w = 0xF ∧ fieldKK w ∉ selectorsF) := by
  constructor
  · intro h
    have hmask := mask_of_unrecognised h
    have hop := fieldOp_encode_of_unrecognised h
    rw [encode_decode] at hop
    obtain hop | hop | hop | hop := hop
    · rw [decode_of_op_0 hop] at hmask
      exact .inl ⟨hop, fun hn => absurd ((mask_decode0 hn).symm.trans hmask) (by decide)⟩
    · rw [decode_of_op_8 hop] at hmask
      exact .inr (.inl ⟨hop, fun hn => absurd ((mask_decode8 hn).symm.trans hmask) (by decide)⟩)
    · rw [decode_of_op_E hop] at hmask
      exact .inr (.inr (.inl ⟨hop, fun hn => absurd ((mask_decodeE hn).symm.trans hmask) (by decide)⟩))
    · rw [decode_of_op_F hop] at hmask
      exact .inr (.inr (.inr ⟨hop, fun hn => absurd ((mask_decodeF hn).symm.trans hmask) (by decide)⟩))
  · rintro (⟨h, hn⟩ | ⟨h, hn⟩ | ⟨h, hn⟩ | ⟨h, hn⟩)
    · rw [decode_of_op_0 h, decode0_of_unnamed hn]; rfl
    · rw [decode_of_op_8 h, decode8_of_unnamed hn]; rfl
    · rw [decode_of_op_E h, decodeE_of_unnamed hn]; rfl
    · rw [decode_of_op_F h, decodeF_of_unnamed hn]; rfl

/-- Settles O6: `unrecognised_decode` with fields and selectors read as numbers; for `op = 0x8` the unnamed selectors
are the complement of the named ones. -/
theorem unrecognisedWordsAreTheUnnamedSelectors : Obligations.UnrecognisedWordsAreTheUnnamedSelectors := by
  unfold Obligations.UnrecognisedWordsAreTheUnnamedSelectors
  intro w
  rw [unrecognised_decode]
  simp only [selectors0, selectors8, selectorsE, selectorsF, List.mem_cons, List.not_mem_nil, or_false,
    BitVec.toNat_eq, toNat_fieldOp, toNat_fieldN, toNat_fieldKK, toNat_fieldNNN, BitVec.ofNat_eq_ofNat,
    BitVec.toNat_ofNat]
  refine or_congr Iff.rfl (or_congr (and_congr Iff.rfl ?_) Iff.rfl)
  omega

/-! ### Encoding a decoded word -/

theorem wellFormed_of_recognised {i : Instr} (hi : i.unrecognised = false) : i.wellFormed = true := by
  cases i with
  | sys _ | unrec8 _ _ _ | unrecE _ _ | unrecF _ _ => cases hi
  | _ => rfl

/-- A decoded instruction is well-formed: an unrecognised one holds a selector that no row names (R97). -/
theorem wellFormed_decode (w : Word16) : (decode w).wellFormed = true := by
  cases h : (decode w).unrecognised with
  | false => exact wellFormed_of_recognised h
  | true =>
    obtain ⟨h, hn⟩ | ⟨h, hn⟩ | ⟨h, hn⟩ | ⟨h, hn⟩ := (unrecognised_decode w).mp h
    · rw [decode_of_op_0 h, decode0_of_unnamed hn]; simpa [Instr.wellFormed] using hn
    · rw [decode_of_op_8 h, decode8_of_unnamed hn]; simpa [Instr.wellFormed] using hn
    · rw [decode_of_op_E h, decodeE_of_unnamed hn]; simpa [Instr.wellFormed] using hn
    · rw [decode_of_op_F h, decodeF_of_unnamed hn]; simpa [Instr.wellFormed] using hn

/-- Settles O2, by the two halves. -/
theorem encodingADecodedWordGivesItBack : Obligations.EncodingADecodedWordGivesItBack := by
  unfold Obligations.EncodingADecodedWordGivesItBack
  exact fun w => ⟨wellFormed_decode w, encode_decode w⟩

/-! ### The opcode table (R99) -/

theorem opcodeRow_mem_opcodeTable (i : Instr) : opcodeRow i ∈ opcodeTable := by
  cases i <;> simp [opcodeRow, opcodeTable]

section

open Laws

/-- The word of every instruction matches the instruction's row (R95, R99). -/
theorem opcodeRow_matches_encode : ∀ i : Instr, (opcodeRow i).matches (encode i) = true
  | .cls => RowMatch.cls
  | .ret => RowMatch.ret
  | .sys nnn => RowMatch.sys nnn
  | .jp nnn => RowMatch.jp nnn
  | .call nnn => RowMatch.call nnn
  | .seImm x kk => RowMatch.seImm x kk
  | .sneImm x kk => RowMatch.sneImm x kk
  | .seReg x y z => RowMatch.seReg x y z
  | .ldImm x kk => RowMatch.ldImm x kk
  | .addImm x kk => RowMatch.addImm x kk
  | .ldReg x y => RowMatch.ldReg x y
  | .orReg x y => RowMatch.orReg x y
  | .andReg x y => RowMatch.andReg x y
  | .xorReg x y => RowMatch.xorReg x y
  | .addReg x y => RowMatch.addReg x y
  | .subReg x y => RowMatch.subReg x y
  | .shrReg x y => RowMatch.shrReg x y
  | .subnReg x y => RowMatch.subnReg x y
  | .shlReg x y => RowMatch.shlReg x y
  | .sneReg x y z => RowMatch.sneReg x y z
  | .ldI nnn => RowMatch.ldI nnn
  | .jpV0 nnn => RowMatch.jpV0 nnn
  | .rnd x kk => RowMatch.rnd x kk
  | .drw x y n => RowMatch.drw x y n
  | .skp x => RowMatch.skp x
  | .sknp x => RowMatch.sknp x
  | .ldVxDT x => RowMatch.ldVxDT x
  | .ldVxK x => RowMatch.ldVxK x
  | .ldDTVx x => RowMatch.ldDTVx x
  | .ldSTVx x => RowMatch.ldSTVx x
  | .addI x => RowMatch.addI x
  | .ldF x => RowMatch.ldF x
  | .ldB x => RowMatch.ldB x
  | .storeBlock x => RowMatch.storeBlock x
  | .loadBlock x => RowMatch.loadBlock x
  | .unrec8 x y n => RowMatch.unrec8 x y n
  | .unrecE x kk => RowMatch.unrecE x kk
  | .unrecF x kk => RowMatch.unrecF x kk

end

theorem opcodeRow_decode_matches (w : Word16) : (opcodeRow (decode w)).matches w = true := by
  simpa only [encode_decode] using opcodeRow_matches_encode (decode w)

/-- Two rows with one mask that match the same word are the same row. -/
theorem OpcodeRow.eq_of_matches {r q : OpcodeRow} {w : Word16} (hr : r.matches w = true) (hq : q.matches w = true)
    (hmask : r.mask = q.mask) : r = q := by
  obtain ⟨m, v⟩ := r
  obtain ⟨m', v'⟩ := q
  obtain rfl : m = m' := hmask
  have hv : w &&& m = v := beq_iff_eq.mp hr
  have hv' : w &&& m = v' := beq_iff_eq.mp hq
  rw [← hv, ← hv']

/-- A row of the table tests `op` only, or tests also the selector of a selector space, and then for a named one. -/
theorem opcodeTable_cases : ∀ r ∈ opcodeTable, r.mask = 0xF000 ∨
    (r.mask = 0xFFFF ∧ fieldOp r.value = 0x0 ∧ fieldNNN r.value ∈ selectors0) ∨
    (r.mask = 0xF00F ∧ fieldOp r.value = 0x8 ∧ fieldN r.value ∈ selectors8) ∨
    (r.mask = 0xF0FF ∧ fieldOp r.value = 0xE ∧ fieldKK r.value ∈ selectorsE) ∨
    (r.mask = 0xF0FF ∧ fieldOp r.value = 0xF ∧ fieldKK r.value ∈ selectorsF) := by
  decide

section

variable {r : OpcodeRow} {w : Word16}

/-- A matching row that tests a selector has the mask of the decoded instruction's row (R94, R99). -/
theorem mask_decode_of_matches (hr : r ∈ opcodeTable) (h : r.matches w = true) (hmask : r.mask ≠ 0xF000) :
    (opcodeRow (decode w)).mask = r.mask := by
  have hv : w &&& r.mask = r.value := beq_iff_eq.mp h
  obtain hm | ⟨hm, hop, hn⟩ | ⟨hm, hop, hn⟩ | ⟨hm, hop, hn⟩ | ⟨hm, hop, hn⟩ := opcodeTable_cases r hr
  · exact absurd hm hmask
  · rw [← hv, hm, and_mask_all] at hop hn
    rw [decode_of_op_0 hop, mask_decode0 hn, hm]
  · rw [← hv, hm, and_mask_op_n, fieldOp_wordXYN] at hop
    rw [← hv, hm, and_mask_op_n, fieldN_wordXYN] at hn
    rw [decode_of_op_8 hop, mask_decode8 hn, hm]
  · rw [← hv, hm, and_mask_op_kk, fieldOp_wordXKK] at hop
    rw [← hv, hm, and_mask_op_kk, fieldKK_wordXKK] at hn
    rw [decode_of_op_E hop, mask_decodeE hn, hm]
  · rw [← hv, hm, and_mask_op_kk, fieldOp_wordXKK] at hop
    rw [← hv, hm, and_mask_op_kk, fieldKK_wordXKK] at hn
    rw [decode_of_op_F hop, mask_decodeF hn, hm]

/-- A row that tests a selector has more 1 bits in its mask than one that tests `op` only. -/
theorem weight_lt_of_mask {q : OpcodeRow} (hq : q ∈ opcodeTable) (hr : r.mask = 0xF000) (hne : q.mask ≠ 0xF000) :
    r.weight < q.weight := by
  obtain h | ⟨h, -⟩ | ⟨h, -⟩ | ⟨h, -⟩ | ⟨h, -⟩ := opcodeTable_cases q hq
  · exact absurd h hne
  all_goals simp only [OpcodeRow.weight, hr, h]; decide

/-- A matching row is the decoded instruction's, or has fewer 1 bits in its mask: with a selector tested it has the
same mask; without, the decoded instruction's row has the same mask or a larger one (R99). -/
theorem row_eq_or_weight_lt (hr : r ∈ opcodeTable) (h : r.matches w = true) :
    r = opcodeRow (decode w) ∨ r.weight < (opcodeRow (decode w)).weight := by
  by_cases hmask : r.mask = (opcodeRow (decode w)).mask
  · exact .inl (OpcodeRow.eq_of_matches h (opcodeRow_decode_matches w) hmask)
  · have hop : r.mask = 0xF000 := not_imp_comm.mp (mask_decode_of_matches hr h) (Ne.symm hmask)
    exact .inr (weight_lt_of_mask (opcodeRow_mem_opcodeTable _) hop (hop ▸ Ne.symm hmask))

end

/-- Settles O5, by the kinds of row of the table. -/
theorem decoderPicksTheMostSpecificMatchingRow : Obligations.DecoderPicksTheMostSpecificMatchingRow := by
  unfold Obligations.DecoderPicksTheMostSpecificMatchingRow
  exact fun w => ⟨opcodeRow_mem_opcodeTable _, opcodeRow_decode_matches w, fun _ hr h => row_eq_or_weight_lt hr h⟩

end Sys2Proof

namespace Sys2Proof.Machine

/-- Settles O11, by what every instruction answers. -/
theorem everyStateHasANextState : Obligations.EveryStateHasANextState := by
  unfold Obligations.EveryStateHasANextState
  exact step_total

/-! ### The register skips (R150, R151) -/

/-- A skip of the instruction at `a` continues at `a + 4`, else at `a + 2` (R122). -/
theorem advance_skipIf_pc (s : State) (b : Bool) :
    (s.advance.skipIf b).pc = if b = true then s.pc + 4 else s.pc + 2 := by
  rw [skipIf_pc, advance_pc, BitVec.add_assoc]
  rfl

/-- Settles O21: neither meaning reads the low nibble. -/
theorem registerSkipsIgnoreTheLowNibble : Obligations.RegisterSkipsIgnoreTheLowNibble := by
  unfold Obligations.RegisterSkipsIgnoreTheLowNibble
  intro x y z s
  refine ⟨⟨_, rfl, ?se, frame_skipIf s _⟩, ⟨_, rfl, ?sne, frame_skipIf s _⟩⟩
  case se => simp only [advance_skipIf_pc, beq_iff_eq]
  case sne => rw [advance_skipIf_pc]; simp only [bne_iff_ne, ne_eq, ite_not]

end Sys2Proof.Machine
end

section
/-! PROOFS of the family `40_cycle.md`: the fetch and its fault (R121, R271), the halted CORE (R125), the table of
causes (R129, R278), and `DRW` (R212). -/

namespace Sys2Proof.Machine

/-! ### The fetched word (R120, R121) -/

/-- Settles O7: the two bytes that decode are the word that is fetched. -/
theorem stepRunsTheDecodedInstruction : Obligations.StepRunsTheDecodedInstruction := by
  unfold Obligations.StepRunsTheDecodedInstruction
  intro s i hrun hpc _ hdecode
  cases hdecode
  exact step_fetch_some hrun (fetch16_eq_some.mpr ⟨by omega, rfl⟩)

/-! ### Cycles of a halted CORE (R125) -/

/-- A run of one cycle more is the cycle, then the run from the state it answers. -/
theorem runCycles_succ {s t : State} (n : Nat) (h : step s = .next t) : runCycles (n + 1) s = runCycles n t := by
  simp only [runCycles, h]

/-- Settles O9, by induction on the number of cycles. -/
theorem haltedCoreIgnoresEveryCycle : Obligations.HaltedCoreIgnoresEveryCycle := by
  unfold Obligations.HaltedCoreIgnoresEveryCycle
  intro s c n hhalt
  induction n with
  | zero => rfl
  | succ n ih => exact (runCycles_succ n (step_halted hhalt)).trans ih

/-! ### Appending to the draw queue, and `DRW` (R129, R212) -/

section

variable {x y : RegId} {n : Nibble} {s : State}

/-- An append touches nothing but the queue and `pc`. -/
theorem frame_append (s : State) (d : DrawCommand) :
    Frame { dq := true } s { s.advance with dq := s.dq ++ [d] } := by
  constructor <;> simp [State.getV, State.readByte]

theorem orFatal_enqueue_room (c : Fault) (d : DrawCommand) (h : s.limits.drawqDepth ≠ some s.dq.length) :
    orFatal s c (enqueue s.advance d) = .next { s.advance with dq := s.dq ++ [d] } :=
  congrArg (orFatal s c) (enqueue_eq_some (s := s.advance).mpr ⟨h, rfl⟩)

theorem orFatal_enqueue_full (c : Fault) (d : DrawCommand) (h : s.limits.drawqDepth = some s.dq.length) :
    orFatal s c (enqueue s.advance d) = .next { s with fault := some c } :=
  congrArg (orFatal s c) (enqueue_eq_none (s := s.advance).mpr h)

/-- A sprite in bounds is what `DRW` tries to append, all its rows copied. -/
theorem execDrw_inBounds (h : n.toNat = 0 ∨ s.I.toNat + n.toNat ≤ Config.memSize) :
    execDrw x y n s = orFatal s .drawQueueOverflow (enqueue s.advance
      (.draw (originX (s.getV x)) (originY (s.getV y)) (Memory.readBytes s.mem s.I.toNat n.toNat))) := by
  rw [execDrw, memRead_eq_some.mpr ⟨h, rfl⟩]

/-- A sprite out of bounds is fatal, whatever the queue (R129). -/
theorem execDrw_outOfBounds (h : n.toNat ≠ 0 ∧ Config.memSize < s.I.toNat + n.toNat) :
    execDrw x y n s = .next { s with fault := some .dataOutOfBounds } := by
  rw [execDrw, memRead_eq_none.mpr h, raiseFatal_eq]

theorem getElem?_readBytes {m : Memory} {a k i : Nat} (h : i < k) :
    (Memory.readBytes m a k)[i]? = some (Memory.read m (a + i)) := by
  rw [List.getElem?_eq_getElem (by simpa using h), Memory.getElem_readBytes]

end

/-- Settles O38, by the bounds of the sprite and then the room in the queue. -/
theorem drawQueuesTheSpriteWithoutAFlag : Obligations.DrawQueuesTheSpriteWithoutAFlag := by
  unfold Obligations.DrawQueuesTheSpriteWithoutAFlag
  intro x y n s
  refine ⟨fun hin => ?inBounds, fun hout => execDrw_outOfBounds (by rw [Config.memSize]; omega)⟩
  case inBounds =>
    have hexec := execDrw_inBounds (x := x) (y := y) (n := n) (s := s) (by rw [Config.memSize]; omega)
    exact ⟨fun hroom => ⟨_, _, _, _, hexec.trans (orFatal_enqueue_room _ _ hroom), rfl, val_originX _,
        val_originY _, Memory.length_readBytes _ _ _, fun _ hi => getElem?_readBytes hi, rfl, frame_append s _⟩,
      fun hfull => hexec.trans (orFatal_enqueue_full _ _ hfull)⟩

/-! ### The table of causes (R278) -/

/-- The table of R278, by cause: whether executing `i` in the running state `s` raises it. The fetch fault is no
instruction's. -/
def Raises (i : Instr) (s : State) : Fault → Prop
  | .fetchOutOfBounds => False
  | .returnEmptyStack => i = .ret ∧ s.stack = []
  | .dataOutOfBounds => dataOutside i s
  | .stackOverflow => (∃ nnn, i = .call nnn) ∧ s.limits.stackDepth = some s.stack.length
  | .drawQueueOverflow => appends i ∧ ¬ dataOutside i s ∧ s.limits.drawqDepth = some s.dq.length

section

variable {i : Instr} {s t : State} {c d : Fault} {o : Option State}

theorem dataOutside_iff : dataOutside i s ↔ dataCount i ≠ 0 ∧ Config.memSize < s.I.toNat + dataCount i := by
  simp only [dataOutside, Config.memSize]; omega

theorem not_dataOutside (h : dataCount i = 0) : ¬ dataOutside i s := fun hout => (dataOutside_iff.mp hout).1 h

theorem raises_ret : Raises .ret s c ↔ c = .returnEmptyStack ∧ s.stack = [] := by
  have hdata : ¬ dataOutside .ret s := not_dataOutside rfl
  cases c <;> simp [Raises, appends, hdata]

theorem raises_call (nnn : Addr12) :
    Raises (.call nnn) s c ↔ c = .stackOverflow ∧ s.limits.stackDepth = some s.stack.length := by
  have hdata : ¬ dataOutside (.call nnn) s := not_dataOutside rfl
  cases c <;> simp [Raises, appends, hdata]

/-- An instruction that appends, with its data out of bounds: that is its one cause, whatever the queue (R129). -/
theorem raises_append_outside (h : appends i) (hout : dataOutside i s) : Raises i s c ↔ c = .dataOutOfBounds := by
  obtain rfl | ⟨x, y, n, rfl⟩ := h <;> cases c <;> simp [Raises, hout]

/-- An instruction that appends, with its data in bounds: its one cause is a full queue (R275). -/
theorem raises_append_inside (h : appends i) (hin : ¬ dataOutside i s) :
    Raises i s c ↔ c = .drawQueueOverflow ∧ s.limits.drawqDepth = some s.dq.length := by
  obtain rfl | ⟨x, y, n, rfl⟩ := h <;> cases c <;> simp [Raises, appends, hin]

/-- Any other instruction has one cause, data out of bounds. -/
theorem raises_other (hret : i ≠ .ret) (hcall : ∀ nnn, i ≠ .call nnn) (hcls : i ≠ .cls)
    (hdrw : ∀ x y n, i ≠ .drw x y n) : Raises i s c ↔ c = .dataOutOfBounds ∧ dataOutside i s := by
  cases c <;> simp [Raises, appends, hret, hcall, hcls, hdrw]

/-- An instruction that can fail raises its cause exactly when it fails. -/
theorem orFatal_fault_iff (hrun : s.fault = none) (hkeep : ∀ u, o = some u → u.fault = s.fault)
    (h : orFatal s d o = .next t) : t.fault = some c ↔ c = d ∧ o = none := by
  obtain rfl | ⟨rfl, rfl⟩ := orFatal_cases h
  · simp [hkeep t rfl, hrun]
  · simp [eq_comm]

theorem execLdVxK_keeps_fault {x : RegId} (h : execLdVxK x s = .next t) : t.fault = s.fault := by
  unfold execLdVxK at h
  split at h <;> cases h <;> rfl

/-! What each instruction that can fail raises -/

variable (hrun : s.fault = none)

include hrun

theorem execRet_fault_iff (h : execRet s = .next t) : t.fault = some c ↔ Raises .ret s c := by
  rw [raises_ret, orFatal_fault_iff hrun ?keep h, popToPc_eq_none, advance_stack]
  case keep =>
    intro u hu
    obtain ⟨v, rest, -, rfl⟩ := popToPc_eq_some.mp hu
    rfl

theorem execCall_fault_iff {nnn : Addr12} (h : execCall nnn s = .next t) :
    t.fault = some c ↔ Raises (.call nnn) s c := by
  rw [raises_call, orFatal_fault_iff hrun ?keep h, Option.map_eq_none_iff, pushStack_eq_none, advance_limits,
    advance_stack]
  case keep =>
    intro u hu
    obtain ⟨v, hv, rfl⟩ := Option.map_eq_some_iff.mp hu
    obtain ⟨-, rfl⟩ := pushStack_eq_some.mp hv
    rfl

/-- The append of `CLS`, and of `DRW` with its sprite in bounds. -/
theorem enqueue_fault_iff {e : DrawCommand} (happ : appends i) (hin : ¬ dataOutside i s)
    (h : orFatal s .drawQueueOverflow (enqueue s.advance e) = .next t) : t.fault = some c ↔ Raises i s c := by
  rw [raises_append_inside happ hin, orFatal_fault_iff hrun ?keep h, enqueue_eq_none, advance_limits, advance_dq]
  case keep =>
    intro u hu
    obtain ⟨-, rfl⟩ := enqueue_eq_some.mp hu
    rfl

theorem execDrw_fault_iff {x y : RegId} {n : Nibble} (h : execDrw x y n s = .next t) :
    t.fault = some c ↔ Raises (.drw x y n) s c := by
  have happ : appends (.drw x y n) := .inr ⟨x, y, n, rfl⟩
  by_cases hout : dataOutside (.drw x y n) s
  · rw [execDrw_outOfBounds (dataOutside_iff.mp hout)] at h
    cases h
    rw [raises_append_outside happ hout, Option.some.injEq, eq_comm]
  · have hin : n.toNat = 0 ∨ s.I.toNat + n.toNat ≤ Config.memSize := by
      rw [dataOutside_iff, dataCount] at hout; omega
    rw [execDrw_inBounds hin] at h
    exact enqueue_fault_iff hrun happ hout h

theorem execLdB_fault_iff {x : RegId} (h : execLdB x s = .next t) : t.fault = some c ↔ Raises (.ldB x) s c := by
  rw [raises_other (i := .ldB x) nofun nofun nofun nofun,
    orFatal_fault_iff hrun (fun _ hu => (frame_memWrite hu).1.fault) h, memWrite_eq_none, dataOutside_iff,
    length_bcdDigits, dataCount]

theorem execStoreBlock_fault_iff {x : RegId} (h : execStoreBlock x s = .next t) :
    t.fault = some c ↔ Raises (.storeBlock x) s c := by
  rw [raises_other (i := .storeBlock x) nofun nofun nofun nofun, orFatal_fault_iff hrun ?keep h,
    Option.map_eq_none_iff, memWrite_eq_none, dataOutside_iff, length_getBlock, dataCount]
  case keep =>
    intro u hu
    obtain ⟨v, hv, rfl⟩ := Option.map_eq_some_iff.mp hu
    exact (frame_memWrite hv).1.fault

theorem execLoadBlock_fault_iff {x : RegId} (h : execLoadBlock x s = .next t) :
    t.fault = some c ↔ Raises (.loadBlock x) s c := by
  rw [raises_other (i := .loadBlock x) nofun nofun nofun nofun, orFatal_fault_iff hrun ?keep h,
    Option.map_eq_none_iff, memRead_eq_none, dataOutside_iff, blockCount, dataCount]
  case keep =>
    intro u hu
    obtain ⟨bs, -, rfl⟩ := Option.map_eq_some_iff.mp hu
    simp

/-- An instruction without data, a return address or a command to append raises nothing when it keeps `fault`. -/
theorem fault_iff_of_keeps (hkeep : t.fault = s.fault) (hdata : dataCount i = 0) (hret : i ≠ .ret)
    (hcall : ∀ nnn, i ≠ .call nnn) (hcls : i ≠ .cls) (hdrw : ∀ x y n, i ≠ .drw x y n) :
    t.fault = some c ↔ Raises i s c := by
  rw [raises_other hret hcall hcls hdrw]
  simp [hkeep, hrun, not_dataOutside hdata]

/-- Executing an instruction raises exactly the causes of the table (R278). -/
theorem exec_fault_iff (h : exec i s = .next t) : t.fault = some c ↔ Raises i s c := by
  cases i with
  | ret => exact execRet_fault_iff hrun h
  | call nnn => exact execCall_fault_iff hrun h
  | cls => exact enqueue_fault_iff hrun (.inl rfl) (not_dataOutside rfl) h
  | drw x y n => exact execDrw_fault_iff hrun h
  | ldB x => exact execLdB_fault_iff hrun h
  | storeBlock x => exact execStoreBlock_fault_iff hrun h
  | loadBlock x => exact execLoadBlock_fault_iff hrun h
  | ldVxK x => exact fault_iff_of_keeps hrun (execLdVxK_keeps_fault h) rfl nofun nofun nofun nofun
  | seImm _ _ | sneImm _ _ | seReg _ _ _ | sneReg _ _ _ | skp _ | sknp _ =>
    cases h
    exact fault_iff_of_keeps hrun (skipIf_fault _ _) rfl nofun nofun nofun nofun
  | _ =>
    cases h
    exact fault_iff_of_keeps hrun rfl rfl nofun nofun nofun nofun

end

/-- Settles O12: each clause is one cause of the table. -/
theorem faultCausesAreThoseOfTheTable : Obligations.FaultCausesAreThoseOfTheTable := by
  unfold Obligations.FaultCausesAreThoseOfTheTable
  intro i s t hrun h
  have htable (c : Fault) : t.fault = some c ↔ Raises i s c := exec_fault_iff hrun h
  exact ⟨(htable .fetchOutOfBounds).mp, htable .returnEmptyStack, htable .stackOverflow, htable .dataOutOfBounds,
    htable .drawQueueOverflow⟩

/-- Settles O8: with the fetch in bounds the step is an instruction's, and no instruction raises the fetch fault. -/
theorem fetchFaultsExactlyBeyondMemory : Obligations.FetchFaultsExactlyBeyondMemory := by
  unfold Obligations.FetchFaultsExactlyBeyondMemory
  refine fun s hrun => ⟨fun hpc => step_fetch_none hrun (fetch16_eq_none.mpr (by omega)), fun hpc t h => ?_⟩
  rw [step_fetch_some hrun (fetch16_eq_some.mpr ⟨by omega, rfl⟩)] at h
  exact (exec_fault_iff hrun h).mp

end Sys2Proof.Machine
end

section
/-! PROOFS of the family `41_control.md`: return and call (R140, R146), the jumps (R142, R152), the immediate skips
(R148, R149), and the jump to itself that ends a run (R312). -/

namespace Sys2Proof.Machine

/-! ### `RET` and `CALL` (R140, R146) -/

section

variable {s : State}

/-- Changing the stack and `pc` touches nothing else. -/
theorem frame_stack_pc (s : State) (a : Word16) (vs : List Word16) :
    Frame { stack := true } s { s with pc := a, stack := vs } := by
  constructor <;> simp [State.getV, State.readByte]

theorem exec_ret_cons {v : Word16} {rest : List Word16} (h : s.stack = v :: rest) :
    exec .ret s = .next { s with pc := v, stack := rest } :=
  congrArg (orFatal s .returnEmptyStack) (popToPc_eq_some (s := s.advance).mpr ⟨v, rest, h, rfl⟩)

theorem exec_ret_nil (h : s.stack = []) : exec .ret s = .next { s with fault := some .returnEmptyStack } :=
  congrArg (orFatal s .returnEmptyStack) (popToPc_eq_none (s := s.advance).mpr h)

theorem exec_call_room (nnn : Addr12) (h : s.limits.stackDepth ≠ some s.stack.length) :
    exec (.call nnn) s = .next { s with pc := zext16Addr nnn, stack := (s.pc + 2) :: s.stack } := by
  have hpush : pushStack s.advance s.advance.pc = some { s.advance with stack := (s.pc + 2) :: s.stack } :=
    pushStack_eq_some.mpr ⟨h, rfl⟩
  exact congrArg (fun o => orFatal s .stackOverflow (o.map (State.jumpTo · (zext16Addr nnn)))) hpush

theorem exec_call_full (nnn : Addr12) (h : s.limits.stackDepth = some s.stack.length) :
    exec (.call nnn) s = .next { s with fault := some .stackOverflow } := by
  have hpush : pushStack s.advance s.advance.pc = none := pushStack_eq_none.mpr h
  exact congrArg (fun o => orFatal s .stackOverflow (o.map (State.jumpTo · (zext16Addr nnn)))) hpush

/-- A `CALL` that raises no fault has pushed the address behind it. -/
theorem stack_of_exec_call {nnn : Addr12} {t : State} (h : exec (.call nnn) s = .next t) (ht : t.fault = none) :
    t.stack = (s.pc + 2) :: s.stack := by
  by_cases hfull : s.limits.stackDepth = some s.stack.length
  · cases (exec_call_full nnn hfull).symm.trans h
    cases ht
  · cases (exec_call_room nnn hfull).symm.trans h
    rfl

end

/-- Settles O19: the `RET` pops the address that the `CALL` pushed. -/
theorem returnAfterCallContinuesBehindTheCall : Obligations.ReturnAfterCallContinuesBehindTheCall := by
  unfold Obligations.ReturnAfterCallContinuesBehindTheCall
  intro nnn s t u _ hcall ht hu
  exact ⟨_, exec_ret_cons (hu.trans (stack_of_exec_call hcall ht)), rfl, rfl⟩

/-- Settles O15, by the two cases of the stack. -/
theorem returnPopsThePc : Obligations.ReturnPopsThePc := by
  unfold Obligations.ReturnPopsThePc
  exact fun s => ⟨fun v rest h => ⟨_, exec_ret_cons h, rfl, rfl, frame_stack_pc s v rest⟩, exec_ret_nil⟩

/-- Settles O18, by the room on the stack. -/
theorem callPushesTheNextAddressAndJumps : Obligations.CallPushesTheNextAddressAndJumps := by
  unfold Obligations.CallPushesTheNextAddressAndJumps
  exact fun nnn s =>
    ⟨fun hroom => ⟨_, exec_call_room nnn hroom, toNat_zext16Addr nnn, rfl, frame_stack_pc s _ _⟩, exec_call_full nnn⟩

/-! ### The jumps (R142, R152) -/

/-- Settles O16: the target is the address, widened. -/
theorem jumpSetsThePcToItsAddress : Obligations.JumpSetsThePcToItsAddress := by
  unfold Obligations.JumpSetsThePcToItsAddress
  exact fun nnn s => ⟨_, rfl, toNat_zext16Addr nnn, frame_jumpTo s _⟩

/-- Settles O17: the sum fits 16 bits, so nothing wraps. -/
theorem indexedJumpAddsRegisterZero : Obligations.IndexedJumpAddsRegisterZero := by
  unfold Obligations.IndexedJumpAddsRegisterZero
  exact fun nnn s => ⟨_, rfl, toNat_indexedTarget s nnn, frame_jumpTo s _⟩

/-! ### The immediate skips (R148, R149) -/

/-- Settles O20: a skip moves `pc` only, by its condition. -/
theorem immediateSkipsMoveThePcByTheCondition : Obligations.ImmediateSkipsMoveThePcByTheCondition := by
  unfold Obligations.ImmediateSkipsMoveThePcByTheCondition
  intro x kk s
  refine ⟨⟨_, rfl, ?se, frame_skipIf s _⟩, ⟨_, rfl, ?sne, frame_skipIf s _⟩⟩
  case se => simp only [advance_skipIf_pc, beq_iff_eq]
  case sne => rw [advance_skipIf_pc]; simp only [bne_iff_ne, ne_eq, ite_not]

/-! ### The jump to itself (R312) -/

theorem decode_of_op_1 {w : Word16} (h : fieldOp w = 0x1) : decode w = .jp (fieldNNN w) := by simp [decode, h]

/-- A state is at its self-jump when the word it fetches is a `JP` to `pc`. -/
theorem atSelfJump_iff {s : State} : atSelfJump s = true ↔
    ∃ w, fetch16 s = some w ∧ fieldOp w = 0x1 ∧ zext16Addr (fieldNNN w) = s.pc := by
  unfold atSelfJump
  cases fetch16 s <;> simp

/-- A jump to the address of the instruction itself undoes the advance. -/
theorem exec_jp_self {nnn : Addr12} {s : State} (h : zext16Addr nnn = s.pc) : exec (.jp nnn) s = .next s := by
  show Host.Outcome.next (s.advance.jumpTo (zext16Addr nnn)) = .next s
  rw [h]
  rfl

/-- A state that a step leaves as it is, any number of cycles leaves as it is. -/
theorem runCycles_of_step_self {s : State} (h : step s = .next s) (n : Nat) : runCycles n s = .next s := by
  induction n with
  | zero => rfl
  | succ n ih => exact (runCycles_succ n h).trans ih

/-- Settles O56: the cycle fetches the jump, and the jump leaves the state as it is. -/
theorem selfJumpIsAFixedPoint : Obligations.SelfJumpIsAFixedPoint := by
  unfold Obligations.SelfJumpIsAFixedPoint
  intro s n hrun hself
  obtain ⟨w, hfetch, hop, htarget⟩ := atSelfJump_iff.mp hself
  have hstep : step s = .next s :=
    calc step s = exec (decode w) s := step_fetch_some hrun hfetch
      _ = exec (.jp (fieldNNN w)) s := by rw [decode_of_op_1 hop]
      _ = .next s := exec_jp_self htarget
  exact runCycles_of_step_self hstep n

end Sys2Proof.Machine
end

section
/-! PROOFS of the family `42_alu.md`: the instructions that write one register (R160, R162, R164), the values of the
flags as numbers (R166 to R178), and the eight instructions that write a result and then a flag, with another
destination than `V[0xF]` and with `V[0xF]` itself (R157, D8). -/

namespace Sys2Proof.Machine

/-! ### One register, no flag (R160, R162, R164) -/

/-- Settles O22: both write the one register and advance. -/
theorem loadsWriteOnlyTheirDestination : Obligations.LoadsWriteOnlyTheirDestination := by
  unfold Obligations.LoadsWriteOnlyTheirDestination
  intro x y kk s
  exact ⟨⟨_, rfl, getV_setV_same _ _ _, rfl, frame_setV s x _⟩,
    ⟨_, rfl, getV_setV_same _ _ _, rfl, frame_setV s x _⟩⟩

/-- Settles O23: the sum of two bytes is a byte. -/
theorem addImmediateWrapsWithoutAFlag : Obligations.AddImmediateWrapsWithoutAFlag := by
  unfold Obligations.AddImmediateWrapsWithoutAFlag
  intro x kk s
  refine ⟨_, rfl, ?sum, rfl, frame_setV s x _⟩
  case sum => rw [getV_setV_same, BitVec.toNat_add]

/-! ### Flags and results as numbers -/

theorem flagByte_decide (p : Prop) [Decidable p] : flagByte (decide p) = if p then 1 else 0 := by
  simp only [flagByte, decide_eq_true_eq]

theorem toNat_flagByte_decide (p : Prop) [Decidable p] : (flagByte (decide p)).toNat = if p then 1 else 0 := by
  rw [flagByte_decide, apply_ite BitVec.toNat]
  rfl

/-- Bit 0 of a byte is its remainder by 2 (R174). -/
theorem toNat_shiftedOutLow (v : Byte) : (shiftedOutLow v).toNat = v.toNat % 2 := by
  have hbit : v.getLsbD 0 = decide (v.toNat % 2 = 1) := Nat.testBit_zero _
  rw [shiftedOutLow, hbit, toNat_flagByte_decide]
  split <;> omega

/-- Bit 7 of a byte is its quotient by 128 (R178). -/
theorem toNat_shiftedOutHigh (v : Byte) : (shiftedOutHigh v).toNat = v.toNat / 128 := by
  have hbit : v.getLsbD 7 = decide (128 ≤ v.toNat) := BitVec.msb_eq_decide v
  rw [shiftedOutHigh, hbit, toNat_flagByte_decide]
  split <;> omega

theorem toNat_ushiftRight_one (v : Byte) : (v >>> 1).toNat = v.toNat / 2 := by
  rw [BitVec.toNat_ushiftRight, Nat.shiftRight_eq_div_pow, pow_one]

theorem toNat_shiftLeft_one (v : Byte) : (v <<< 1).toNat = v.toNat * 2 % 256 := by
  rw [BitVec.toNat_shiftLeft, Nat.shiftLeft_eq, pow_one]

/-- The difference modulo 256, written without a negative number (R156). -/
theorem toNat_sub_byte (a b : Byte) : (a - b).toNat = (a.toNat + 256 - b.toNat) % 256 := by
  rw [BitVec.toNat_sub]
  omega

/-! ### A result and a flag in two registers (R157) -/

section

variable {s : State} {x : RegId} {v f : Byte}

@[simp] theorem getV_setWithFlag_flag : (s.setWithFlag x v f).getV VF = f := by rw [getV_setWithFlag, if_pos rfl]

theorem getV_setWithFlag_result (hx : x ≠ VF) : (s.setWithFlag x v f).getV x = v := by
  rw [getV_setWithFlag, if_neg hx, if_pos rfl]

end

/-- Settles O24: each bit of the result is the operation on the bits. -/
theorem bitwiseOperationsResetTheFlag : Obligations.BitwiseOperationsResetTheFlag := by
  unfold Obligations.BitwiseOperationsResetTheFlag
  intro x y s hx
  refine ⟨⟨_, rfl, fun i => ?or, getV_setWithFlag_flag, rfl, frame_setWithFlag s x _ _⟩,
    ⟨_, rfl, fun i => ?and, getV_setWithFlag_flag, rfl, frame_setWithFlag s x _ _⟩,
    ⟨_, rfl, fun i => ?xor, getV_setWithFlag_flag, rfl, frame_setWithFlag s x _ _⟩⟩
  case or => rw [getV_setWithFlag_result hx, BitVec.getLsbD_or]
  case and => rw [getV_setWithFlag_result hx, BitVec.getLsbD_and]
  case xor => rw [getV_setWithFlag_result hx, BitVec.getLsbD_xor]

/-- Settles O25, by the sum and the carry as numbers. -/
theorem addRegistersRecordsTheCarry : Obligations.AddRegistersRecordsTheCarry := by
  unfold Obligations.AddRegistersRecordsTheCarry
  intro x y s hx
  refine ⟨_, rfl, ?sum, ?carry, rfl, frame_setWithFlag s x _ _⟩
  case sum => rw [getV_setWithFlag_result hx, BitVec.toNat_add]
  case carry => rw [getV_setWithFlag_flag, carryFlag, toNat_flagByte_decide]

/-- Settles O26, by the difference and the not-borrow as numbers, of the same two operands in either order. -/
theorem subtractionsRecordNotBorrow : Obligations.SubtractionsRecordNotBorrow := by
  unfold Obligations.SubtractionsRecordNotBorrow
  intro x y s hx
  refine ⟨⟨_, rfl, ?sub, ?subFlag, rfl, frame_setWithFlag s x _ _⟩,
    ⟨_, rfl, ?subn, ?subnFlag, rfl, frame_setWithFlag s x _ _⟩⟩
  case sub | subn => rw [getV_setWithFlag_result hx, toNat_sub_byte]
  case subFlag | subnFlag => rw [getV_setWithFlag_flag, notBorrowFlag, toNat_flagByte_decide]

/-- Settles O27: the shifts are a division and a product, and the bit shifted out is the remainder or the overflow. -/
theorem shiftsTakeTheirSourceFromVy : Obligations.ShiftsTakeTheirSourceFromVy := by
  unfold Obligations.ShiftsTakeTheirSourceFromVy
  intro x y s hx
  refine ⟨⟨_, rfl, ?shr, ?shrFlag, rfl, frame_setWithFlag s x _ _⟩,
    ⟨_, rfl, ?shl, ?shlFlag, rfl, frame_setWithFlag s x _ _⟩⟩
  case shr => rw [getV_setWithFlag_result hx, toNat_ushiftRight_one]
  case shrFlag => rw [getV_setWithFlag_flag, toNat_shiftedOutLow]
  case shl => rw [getV_setWithFlag_result hx, toNat_shiftLeft_one]
  case shlFlag => rw [getV_setWithFlag_flag, toNat_shiftedOutHigh]

/-! ### The flag register as the destination (R157, D8) -/

/-- With `V[0xF]` as its destination, an instruction that writes a result and then a flag leaves the flag. -/
theorem leavesFlagOnly_of_setWithFlag {i : Instr} {s : State} {v f g : Byte}
    (hexec : exec i s = .next (s.advance.setWithFlag VF v f)) (hf : f = g) : LeavesFlagOnly i g s := by
  have hframe := frame_setWithFlag s VF v f
  exact ⟨_, hexec, getV_setWithFlag_flag.trans hf, rfl,
    { hframe with regs := fun r hr => hframe.regs r (by simpa using hr) }⟩

theorem eq_ofNat_of_toNat_eq {v : Byte} {n : Nat} (h : v.toNat = n) : v = BitVec.ofNat 8 n := by
  rw [← h, BitVec.ofNat_toNat, BitVec.setWidth_eq]

/-- Settles O28: the flag is written last, so it is what remains. -/
theorem flagOutlastsTheResultInRegisterF : Obligations.FlagOutlastsTheResultInRegisterF := by
  unfold Obligations.FlagOutlastsTheResultInRegisterF
  exact fun y s =>
    ⟨leavesFlagOnly_of_setWithFlag rfl rfl,
      leavesFlagOnly_of_setWithFlag rfl rfl,
      leavesFlagOnly_of_setWithFlag rfl rfl,
      leavesFlagOnly_of_setWithFlag rfl (flagByte_decide _),
      leavesFlagOnly_of_setWithFlag rfl (flagByte_decide _),
      leavesFlagOnly_of_setWithFlag rfl (flagByte_decide _),
      leavesFlagOnly_of_setWithFlag rfl (eq_ofNat_of_toNat_eq (toNat_shiftedOutLow _)),
      leavesFlagOnly_of_setWithFlag rfl (eq_ofNat_of_toNat_eq (toNat_shiftedOutHigh _))⟩

end Sys2Proof.Machine
end

section
/-! PROOFS of the family `43_index_memory.md`: the writes of `I` (R190, R192, R194), the decimal digits stored at `I`
(R196), and the block of registers stored at `I`, loaded from there, and loaded back (R198, R200, C5). -/

namespace Sys2Proof.Machine

/-- An instruction that moved `pc` behind itself raised no fault, so it stayed in its frame (R122, R270). -/
theorem frame_of_exec_advances {i : Instr} {s t : State} (h : exec i s = .next t) (hpc : t.pc = s.pc + 2) :
    Frame (footprint i s) s t := by
  obtain ⟨c, rfl⟩ | ⟨hframe, -⟩ := exec_cases h
  · have hmoved : s.pc ≠ s.pc + 2 := by simp
    exact absurd hpc hmoved
  · exact hframe

/-! ### The index register (R190, R192, R194) -/

/-- Settles O30: the address, widened to 16 bits, is the same number. -/
theorem loadIndexWritesTheAddress : Obligations.LoadIndexWritesTheAddress := by
  unfold Obligations.LoadIndexWritesTheAddress
  exact fun nnn s => ⟨_, rfl, toNat_zext16Addr nnn, rfl, frame_of_exec_advances (i := .ldI nnn) rfl rfl⟩

/-- Settles O31: the sum of two 16-bit words wraps, five times a byte does not. -/
theorem indexSumsWrapAndGlyphAddressesUseTheWholeByte :
    Obligations.IndexSumsWrapAndGlyphAddressesUseTheWholeByte := by
  unfold Obligations.IndexSumsWrapAndGlyphAddressesUseTheWholeByte
  intro x s
  refine ⟨⟨_, rfl, ?sum, rfl, frame_of_exec_advances (i := .addI x) rfl rfl⟩,
    ⟨_, rfl, toNat_glyphAddress _, rfl, frame_of_exec_advances (i := .ldF x) rfl rfl⟩⟩
  case sum => rw [BitVec.toNat_add, toNat_zext16Byte]

/-- Each byte of a run written in bounds reads back. -/
theorem read_writeBytes_inside {m : Memory} (hm : Memory.wf m = true) {a i : Nat} {bs : List Byte}
    (hfits : a + bs.length ≤ Config.memSize) (hi : i < bs.length) :
    Memory.read (Memory.writeBytes m a bs) (a + i) = bs.getD i 0 := by
  rw [Memory.read_writeBytes hm hfits, if_pos (by omega), Nat.add_sub_cancel_left]

/-! ### The decimal digits (R196) -/

section

variable {x : RegId} {s : State}

theorem exec_ldB_inBounds (h : s.I.toNat + 2 ≤ 4095) : exec (.ldB x) s =
    .next { s.advance with mem := Memory.writeBytes s.mem s.I.toNat (bcdDigits (s.getV x)) } :=
  congrArg (orFatal s .dataOutOfBounds) (memWrite_eq_some (s := s.advance).mpr ⟨.inr (Nat.succ_le_succ h), rfl⟩)

theorem exec_ldB_outOfBounds (h : 4095 < s.I.toNat + 2) :
    exec (.ldB x) s = .next { s with fault := some .dataOutOfBounds } := by
  have hwrite : memWrite s.advance s.I.toNat (bcdDigits (s.getV x)) = none :=
    memWrite_eq_none.mpr ⟨Nat.succ_ne_zero 2, Nat.succ_lt_succ h⟩
  exact congrArg (orFatal s .dataOutOfBounds) hwrite

end

/-- The three digits make up the number, and the last two are decimal digits. -/
theorem toNat_bcdDigits (v : Byte) :
    100 * ((bcdDigits v).getD 0 0).toNat + 10 * ((bcdDigits v).getD 1 0).toNat + ((bcdDigits v).getD 2 0).toNat
        = v.toNat ∧
      ((bcdDigits v).getD 1 0).toNat ≤ 9 ∧ ((bcdDigits v).getD 2 0).toNat ≤ 9 := by
  have hv : v.toNat < 256 := v.isLt
  simp only [bcdDigits, List.getD_cons_zero, List.getD_cons_succ, BitVec.toNat_ofNat]
  omega

/-- Settles O32: the three bytes written in bounds read back, and they are the digits. -/
theorem bcdStoresThreeDecimalDigits : Obligations.BcdStoresThreeDecimalDigits := by
  unfold Obligations.BcdStoresThreeDecimalDigits
  intro x s hmem
  refine ⟨fun hin => ⟨_, exec_ldB_inBounds hin, ?digits⟩, exec_ldB_outOfBounds⟩
  case digits =>
    have hread (i : Nat) (hi : i < 3) :
        Memory.read (Memory.writeBytes s.mem s.I.toNat (bcdDigits (s.getV x))) (s.I.toNat + i)
          = (bcdDigits (s.getV x)).getD i 0 :=
      read_writeBytes_inside hmem (Nat.succ_le_succ hin) hi
    have hdigits := toNat_bcdDigits (s.getV x)
    rw [← hread 0 (by decide), ← hread 1 (by decide), ← hread 2 (by decide)] at hdigits
    obtain ⟨hvalue, htens, hones⟩ := hdigits
    exact ⟨hvalue, htens, hones, rfl, frame_of_exec_advances (exec_ldB_inBounds hin) rfl⟩

/-! ### The block store and the block load (R198, R200) -/

section

variable {x : RegId} {s : State}

/-- The index behind a block that fits in memory does not wrap. -/
theorem toNat_I_advanceI (h : s.I.toNat + x.val ≤ 4095) : (s.advanceI x).I.toNat = s.I.toNat + x.val + 1 := by
  rw [advanceI_I, BitVec.toNat_add, BitVec.toNat_ofNat]
  omega

theorem exec_storeBlock_inBounds (h : s.I.toNat + x.val ≤ 4095) : exec (.storeBlock x) s =
    .next ({ s.advance with mem := Memory.writeBytes s.mem s.I.toNat (s.getBlock x) }.advanceI x) := by
  have hwrite := memWrite_eq_some (s := s.advance) (addr := s.I.toNat) (bs := s.getBlock x).mpr
    ⟨.inr (by rw [length_getBlock]; exact Nat.succ_le_succ h), rfl⟩
  exact congrArg (fun o => orFatal s .dataOutOfBounds (o.map (State.advanceI · x))) hwrite

theorem exec_storeBlock_outOfBounds (h : 4095 < s.I.toNat + x.val) :
    exec (.storeBlock x) s = .next { s with fault := some .dataOutOfBounds } := by
  have hwrite : memWrite s.advance s.I.toNat (s.getBlock x) = none :=
    memWrite_eq_none.mpr (by rw [length_getBlock]; exact ⟨Nat.succ_ne_zero _, Nat.succ_lt_succ h⟩)
  exact congrArg (fun o => orFatal s .dataOutOfBounds (o.map (State.advanceI · x))) hwrite

theorem exec_loadBlock_inBounds (h : s.I.toNat + x.val ≤ 4095) : exec (.loadBlock x) s =
    .next ((s.advance.setBlock (Memory.readBytes s.mem s.I.toNat (blockCount x))).advanceI x) := by
  have hread := memRead_eq_some (s := s) (n := blockCount x).mpr ⟨.inr (Nat.succ_le_succ h), rfl⟩
  exact congrArg (fun o => orFatal s .dataOutOfBounds (o.map fun b => (s.advance.setBlock b).advanceI x)) hread

theorem exec_loadBlock_outOfBounds (h : 4095 < s.I.toNat + x.val) :
    exec (.loadBlock x) s = .next { s with fault := some .dataOutOfBounds } := by
  have hread : memRead s s.I.toNat (blockCount x) = none :=
    memRead_eq_none.mpr ⟨Nat.succ_ne_zero _, Nat.succ_lt_succ h⟩
  exact congrArg (fun o => orFatal s .dataOutOfBounds (o.map fun b => (s.advance.setBlock b).advanceI x)) hread

/-- The registers of a block take the bytes read from memory, in order (R200). -/
theorem getV_setBlock_readBytes {i : RegId} (m : Memory) (a : Nat) (hi : i ≤ x) :
    (s.setBlock (Memory.readBytes m a (blockCount x))).getV i = Memory.read m (a + i.val) := by
  rw [getV_setBlock, Memory.getD_readBytes, blockCount, if_pos (Nat.lt_succ_of_le hi)]

end

/-- Settles O33: the bytes written in bounds read back, and they are the registers of the block. -/
theorem storeBlockCopiesRegistersAndAdvancesIndex : Obligations.StoreBlockCopiesRegistersAndAdvancesIndex := by
  unfold Obligations.StoreBlockCopiesRegistersAndAdvancesIndex
  intro x s hmem
  refine ⟨fun hin => ?inBounds, exec_storeBlock_outOfBounds⟩
  case inBounds =>
    have hexec := exec_storeBlock_inBounds hin
    refine ⟨_, hexec, fun i hi => ?stored, toNat_I_advanceI hin, rfl, frame_of_exec_advances hexec rfl⟩
    case stored =>
      have hfits : s.I.toNat + (s.getBlock x).length ≤ Config.memSize := by
        rw [length_getBlock]; exact Nat.succ_le_succ hin
      have hlen : i.val < (s.getBlock x).length := by rw [length_getBlock]; exact Nat.lt_succ_of_le hi
      exact (read_writeBytes_inside hmem hfits hlen).trans (getD_getBlock s x i.val i.isLt hi 0)

/-- Settles O34: the registers of the block become the bytes read, and the frame keeps the others. -/
theorem loadBlockCopiesMemoryAndAdvancesIndex : Obligations.LoadBlockCopiesMemoryAndAdvancesIndex := by
  unfold Obligations.LoadBlockCopiesMemoryAndAdvancesIndex
  intro x s
  refine ⟨fun hin => ?inBounds, exec_loadBlock_outOfBounds⟩
  case inBounds =>
    have hexec := exec_loadBlock_inBounds hin
    refine ⟨_, hexec, fun i hi => ?loaded, ?index, ?pc, frame_of_exec_advances hexec ?pc⟩
    case loaded => rw [advanceI_getV]; exact getV_setBlock_readBytes s.mem s.I.toNat hi
    case index => rw [toNat_I_advanceI (by rwa [setBlock_I]), setBlock_I, advance_I]
    case pc => rw [advanceI_pc, setBlock_pc, advance_pc]

/-- Settles O35: the load reads the bytes that the store wrote, from the same address. -/
theorem storedBlockLoadsBackUnchanged : Obligations.StoredBlockLoadsBackUnchanged := by
  unfold Obligations.StoredBlockLoadsBackUnchanged
  intro x s t u hmem _ hstore ht humem huI
  obtain ⟨hfits, hnext⟩ := execStoreBlock_eq_next hstore ht
  rw [length_getBlock] at hfits
  have hin : s.I.toNat + x.val ≤ 4095 := Nat.le_of_succ_le_succ hfits
  have htI : t.I.toNat = s.I.toNat + x.val + 1 := hnext ▸ toNat_I_advanceI hin
  obtain ⟨hload, -⟩ := loadBlockCopiesMemoryAndAdvancesIndex x u
  obtain ⟨v, hexec, hloaded, hvI, -⟩ := hload (huI ▸ hin)
  refine ⟨v, hexec, fun i hi => ?block, BitVec.eq_of_toNat_eq ?index⟩
  case block =>
    calc v.getV i = u.readByte (u.I.toNat + i.val) := hloaded i hi
      _ = t.readByte (s.I.toNat + i.val) := by rw [huI, readByte_of_mem_eq humem]
      _ = s.getV i := readByte_execStoreBlock hmem hstore ht hi
  case index => rw [hvI, huI, htI]

end Sys2Proof.Machine
end

section
/-! PROOFS of the family `44_display.md`: `CLS` (R210), the polls (R216, R218), what a `Draw` does to the display
(R224, R225, R228), the renderer's step and the drained queue (R226, R227), the flag after `DRW` (R320), and what the
host's transactions answer and write (R220, R258, R265, R266). -/

namespace Sys2Proof.Machine

/-! ### `CLS` (R210) -/

/-- Settles O37, by the room in the queue. -/
theorem clearIsAppendedToTheQueue : Obligations.ClearIsAppendedToTheQueue := by
  unfold Obligations.ClearIsAppendedToTheQueue
  exact fun s => ⟨fun hroom => ⟨_, orFatal_enqueue_room _ _ hroom, rfl, rfl, frame_append s _⟩,
    fun hfull => orFatal_enqueue_full _ _ hfull⟩

/-! ### Polls (R216, R218) -/

theorem withQueue_nil {s : State} (h : s.dq = []) : { s with dq := [] } = s := by rw [← h]

section

variable {s : State} {c : DrawCommand} {rest : List DrawCommand}

theorem drawPoll_nil (h : s.dq = []) : drawPoll s = (none, s) := by simp only [drawPoll, h]

theorem drawPoll_cons (h : s.dq = c :: rest) : drawPoll s = (some c, { s with dq := rest }) := by
  simp only [drawPoll, h]

theorem pollTimes_succ_cons (n : Nat) (h : s.dq = c :: rest) :
    pollTimes (n + 1) s = (c :: (pollTimes n { s with dq := rest }).1, (pollTimes n { s with dq := rest }).2) := by
  simp only [pollTimes, drawPoll_cons h]

/-- One poll for each command returns them all in order and leaves the queue empty. -/
theorem pollTimes_length {q : List DrawCommand} (h : s.dq = q) :
    pollTimes q.length s = (q, { s with dq := [] }) := by
  induction q generalizing s with
  | nil => rw [withQueue_nil h]; rfl
  | cons c rest ih => rw [List.length_cons, pollTimes_succ_cons _ h, ih rfl]

end

/-- Settles O39, by induction on the queue. -/
theorem pollsReturnTheCommandsInOrder : Obligations.PollsReturnTheCommandsInOrder := by
  unfold Obligations.PollsReturnTheCommandsInOrder
  refine fun s => ⟨pollTimes_length rfl, fun hnil => ?empty, fun c rest hcons => ?front⟩
  case empty => simp only [transact, drawPoll_nil hnil]
  case front => simp only [transact, drawPoll_cons hcons]

/-! ### What a `Draw` does to the display (R224, R225, R228) -/

section

variable {d : Display} {ox : Fin 64} {oy : Fin 32} {rows : List Byte} {px : Fin 64} {py : Fin 32}

theorem pixel_blit_covered (h : spriteCovers ox oy rows px py) :
    (blit d ox oy rows).1.pixel px py = !d.pixel px py := by
  obtain ⟨hpixel, -⟩ := plot_foldl (nodup_spritePixels ox oy rows) d false
  exact (hpixel px py).trans (if_pos (mem_spritePixels.mpr h))

theorem pixel_blit_uncovered (h : ¬ spriteCovers ox oy rows px py) :
    (blit d ox oy rows).1.pixel px py = d.pixel px py := by
  obtain ⟨hpixel, -⟩ := plot_foldl (nodup_spritePixels ox oy rows) d false
  exact (hpixel px py).trans (if_neg fun hmem => h (mem_spritePixels.mp hmem))

/-- A `Draw` collides exactly when the sprite covers a pixel that was set. -/
theorem blit_collision_iff :
    (blit d ox oy rows).2 = true ↔ ∃ px py, spriteCovers ox oy rows px py ∧ d.pixel px py = true := by
  obtain ⟨-, hcollision⟩ := plot_foldl (nodup_spritePixels ox oy rows) d false
  simpa only [blit, Bool.false_eq_true, false_or, Prod.exists, mem_spritePixels] using hcollision

/-- A pixel that is inverted twice, or never, is as it was (R228). -/
theorem blit_blit_fst : (blit (blit d ox oy rows).1 ox oy rows).1 = d := by
  refine display_ext fun px py => ?_
  by_cases h : spriteCovers ox oy rows px py
  · rw [pixel_blit_covered h, pixel_blit_covered h, Bool.not_not]
  · rw [pixel_blit_uncovered h, pixel_blit_uncovered h]

/-- The second draw finds a covered pixel set exactly when the first found it 0 (R228). -/
theorem blit_blit_collision_iff : (blit (blit d ox oy rows).1 ox oy rows).2 = true ↔
    ∃ px py, spriteCovers ox oy rows px py ∧ d.pixel px py = false := by
  rw [blit_collision_iff]
  refine exists₂_congr fun px py => and_congr_right fun h => ?_
  rw [pixel_blit_covered h, Bool.not_eq_true']

end

/-- Settles O40: the sprite's pixels are plotted once each. -/
theorem blitXorsTheSpriteAndReportsCollision : Obligations.BlitXorsTheSpriteAndReportsCollision := by
  unfold Obligations.BlitXorsTheSpriteAndReportsCollision
  exact fun d ox oy rows =>
    ⟨fun px py => ⟨pixel_blit_covered, pixel_blit_uncovered⟩, blit_collision_iff⟩

/-- Settles O41, by what one draw does to the pixels that the sprite covers. -/
theorem drawingTwiceRestoresTheDisplay : Obligations.DrawingTwiceRestoresTheDisplay := by
  unfold Obligations.DrawingTwiceRestoresTheDisplay
  exact fun d ox oy rows => ⟨blit_blit_fst, blit_blit_collision_iff⟩

/-! ### The flag and the keys, written from outside (R220, R258, R265, R266) -/

@[simp] theorem getV_setCollision (b : Bool) (s : State) : (setCollision b s).getV VF = flagByte b :=
  getV_setV_same _ _ _

theorem toNat_flagByte (b : Bool) : (flagByte b).toNat = if b then 1 else 0 := by cases b <;> rfl

theorem frame_setCollision (b : Bool) (s : State) : Frame { regs := [VF] } s (setCollision b s) := by
  constructor <;> simp_all [setCollision, getV_setV_other]

/-- Settles O52: each transaction is one write or one read. -/
theorem transactionsAnswerAndWriteTheirOwnState : Obligations.TransactionsAnswerAndWriteTheirOwnState := by
  unfold Obligations.TransactionsAnswerAndWriteTheirOwnState
  refine fun s b k => ⟨⟨_, rfl, ?flag, rfl, frame_setCollision b s⟩, rfl, ⟨_, rfl, decide_eq_true_iff⟩,
    ⟨_, rfl, ?pressed, fun j hj => ?other, rfl, rfl⟩⟩
  case flag => rw [getV_setCollision, toNat_flagByte]
  case pressed => rw [keyDown_keyEvent, if_pos rfl]
  case other => rw [keyDown_keyEvent, if_neg hj.symm]

/-! ### The renderer's step (R223, R224, R226) -/

/-- Settles O60, by the command in front. -/
theorem rendererStepPerformsTheFrontCommand : Obligations.RendererStepPerformsTheFrontCommand := by
  unfold Obligations.RendererStepPerformsTheFrontCommand
  refine fun y => ⟨rendererStep_nil, fun rest hclear => ?clear, fun ox oy rows rest hdraw => ?draw⟩
  case clear =>
    rw [rendererStep_cons hclear]
    exact ⟨rfl, pixel_blank⟩
  case draw =>
    rw [rendererStep_cons hdraw]
    refine ⟨rfl, ?flag, rfl, rfl, { frame_setCollision (blit y.disp ox oy rows).2 y.core with dq := nofun }⟩
    case flag => rw [perform_draw_core, getV_setCollision, toNat_flagByte]

/-! ### The drained queue (R226, R227) -/

/-- As many renderer steps as there are commands perform each once, front first, and empty the queue. -/
theorem rendererSteps_length {y : System} {q : List DrawCommand} (h : y.core.dq = q) :
    rendererSteps q.length y =
      q.foldl (fun z c => perform c z) { core := { y.core with dq := [] }, disp := y.disp } := by
  induction q generalizing y with
  | nil => rw [withQueue_nil h]; rfl
  | cons c rest ih =>
    have hdq : (rendererStep y).core.dq = rest := by rw [dq_rendererStep, h, List.tail_cons]
    have hempty : ({ core := { (rendererStep y).core with dq := [] }, disp := (rendererStep y).disp } : System) =
        perform c { core := { y.core with dq := [] }, disp := y.disp } := by
      rw [rendererStep_cons h]
      exact (perform_withQueue c { y with core := { y.core with dq := rest } } []).symm
    rw [List.length_cons, rendererSteps, ih hdq, hempty, List.foldl_cons]

theorem drain_eq_foldl (y : System) :
    drain y = y.core.dq.foldl (fun z c => perform c z) { core := { y.core with dq := [] }, disp := y.disp } :=
  rendererSteps_length rfl

/-- Performing commands neither reads nor writes the queue. -/
theorem dq_foldl_perform (q : List DrawCommand) (y : System) :
    (q.foldl (fun z c => perform c z) y).core.dq = y.core.dq := by
  induction q generalizing y with
  | nil => rfl
  | cons c rest ih => rw [List.foldl_cons, ih]; cases c <;> rfl

section

variable {y : System} {t : State} (h : step y.core = .next t)
include h

theorem systemCycle_anyTime : systemCycle .anyTime y = some { y with core := t } := by
  have hcycle : instrCycle y.core = .next t := h
  simp only [systemCycle, hcycle]

/-- Under `after_every_cycle` the cycle is the CORE's step and then each queued command performed, in order. -/
theorem systemCycle_afterEveryCycle : systemCycle .afterEveryCycle y =
    some (t.dq.foldl (fun z c => perform c z) { core := { t with dq := [] }, disp := y.disp }) := by
  have hcycle : instrCycle y.core = .next t := h
  simp only [systemCycle, hcycle, drain_eq_foldl]

end

/-- Settles O42, by induction on the queue that the step leaves. -/
theorem drainedQueueIsEmptyAfterEveryCycle : Obligations.DrainedQueueIsEmptyAfterEveryCycle := by
  unfold Obligations.DrainedQueueIsEmptyAfterEveryCycle
  intro y
  obtain ⟨t, ht⟩ := step_total y.core
  exact ⟨t, _, ht, systemCycle_afterEveryCycle ht, dq_foldl_perform _ _, rfl⟩

/-! ### The flag right after `DRW` (R212, R320) -/

/-- A running CORE with room in its queue that fetches a `DRW` whose data lies in memory queues the draw. -/
theorem step_drw {s : State} {x y : RegId} {n : Nibble} {w : Word16} (hrun : s.fault = none)
    (hroom : s.limits.drawqDepth ≠ some s.dq.length) (hfetch : fetch16 s = some w) (hdecode : decode w = .drw x y n)
    (hin : ¬ dataOutside (.drw x y n) s) :
    step s = .next { s.advance with
      dq := s.dq ++ [.draw (originX (s.getV x)) (originY (s.getV y)) (Memory.readBytes s.mem s.I.toNat n.toNat)] } := by
  have hbounds : n.toNat = 0 ∨ s.I.toNat + n.toNat ≤ Config.memSize := by
    rw [dataOutside_iff, dataCount] at hin; omega
  rw [step_fetch_some hrun hfetch, hdecode]
  exact (execDrw_inBounds hbounds).trans (orFatal_enqueue_room _ _ hroom)

/-- Settles O43: the step queues the draw and nothing more; draining the queue performs that one draw. -/
theorem collisionArrivesOnlyWithTheRenderer : Obligations.CollisionArrivesOnlyWithTheRenderer := by
  unfold Obligations.CollisionArrivesOnlyWithTheRenderer
  intro z x y n w hrun hempty hdepth hfetch hdecode hin
  have hroom : z.core.limits.drawqDepth ≠ some z.core.dq.length := by rwa [hempty]
  have hstep := step_drw hrun hroom hfetch hdecode hin
  rw [hempty, List.nil_append] at hstep
  exact ⟨⟨_, systemCycle_anyTime hstep, rfl, rfl⟩,
    ⟨_, _, _, _, systemCycle_afterEveryCycle hstep, val_originX _, val_originY _, rfl, getV_setCollision _ _, rfl⟩⟩

end Sys2Proof.Machine
end

section
/-! PROOFS of the family `45_keys_timers.md`: the latch under key events (R259), the key skips (R240, R242), the
key-wait in one execution and over the source's sequence (R246 to R248), the timers (R250 to R262), and what the
host's transactions leave unchanged (R247, R280). -/

namespace Sys2Proof.Machine

/-! ### The latch under key events (R259) -/

/-- The release of the candidate key frees it. -/
@[simp] theorem latchNext_pressed_release (k : Key) : latchNext (.pressed k) k false = .released k := if_pos rfl

/-- The release of another key leaves the candidate pressed. -/
theorem latchNext_pressed_releaseOther {j k : Key} (h : j ≠ k) : latchNext (.pressed k) j false = .pressed k :=
  if_neg h

/-- Settles O48, row by row. -/
theorem latchReactsByTheTable : Obligations.LatchReactsByTheTable := by
  unfold Obligations.LatchReactsByTheTable
  exact fun k j p =>
    ⟨rfl, rfl, rfl, latchNext_pressed_release k, latchNext_pressed_releaseOther, rfl, rfl⟩

/-! ### The key skips (R240, R242) -/

/-- Settles O44: the key that the register names is `k`, and a skip moves `pc` only. -/
theorem keySkipsTestTheLowNibblesKey : Obligations.KeySkipsTestTheLowNibblesKey := by
  unfold Obligations.KeySkipsTestTheLowNibblesKey
  intro x k s hk
  have hkey : keyOf (s.getV x) = k := Fin.ext ((val_keyOf _).trans hk.symm)
  refine ⟨⟨_, rfl, ?skp, frame_skipIf s _⟩, ⟨_, rfl, ?sknp, frame_skipIf s _⟩⟩
  case skp => rw [advance_skipIf_pc, hkey]
  case sknp => rw [advance_skipIf_pc, hkey]; cases s.keyDown k <;> rfl

/-! ### One execution of the key-wait (R246) -/

section

variable {x : RegId} {k : Key} {s : State}

/-- An idle latch begins to wait; the roll-back undoes the advance. -/
theorem exec_ldVxK_idle (h : s.latch = .idle) : exec (.ldVxK x) s = .next { s with latch := .waiting } := by
  have hback : ({ s.advance with latch := .waiting } : State).rollBack = { s with latch := .waiting } :=
    rollBack_advance { s with latch := .waiting }
  simp only [exec, execLdVxK, h, hback]

/-- A wait that no released key resolves stalls: the roll-back undoes the advance. -/
theorem exec_ldVxK_unresolved (h : s.latch = .waiting ∨ ∃ k, s.latch = .pressed k) :
    exec (.ldVxK x) s = .next s := by
  obtain hl | ⟨k, hl⟩ := h <;> simp only [exec, execLdVxK, hl, rollBack_advance]

/-- A released key completes the wait: the register takes its index and the latch is idle again. -/
theorem exec_ldVxK_released (h : s.latch = .released k) :
    exec (.ldVxK x) s = .next { s.advance.setV x (keyByte k) with latch := .idle } := by
  simp only [exec, execLdVxK, h]

end

/-- Settles O45, by the latch. -/
theorem keyWaitEntersStallsOrCompletes : Obligations.KeyWaitEntersStallsOrCompletes := by
  unfold Obligations.KeyWaitEntersStallsOrCompletes
  refine fun x s => ⟨exec_ldVxK_idle, fun h => exec_ldVxK_unresolved (.inl h),
    fun k h => exec_ldVxK_unresolved (.inr ⟨k, h⟩), fun k h => ?completes⟩
  case completes =>
    have hexec := exec_ldVxK_released (x := x) h
    have hV := (congrArg BitVec.toNat (getV_setV_same s.advance x (keyByte k))).trans (toNat_keyByte k)
    exact ⟨_, hexec, hV, rfl, rfl, frame_of_exec_advances hexec rfl⟩

/-! ### A running CORE at a key-wait (R247) -/

/-- A running CORE whose word at `pc` is `LD Vx, K`. -/
structure AtKeyWait (x : RegId) (s : State) : Prop where
  running : s.fault = none
  fetches : fetch16 s = some (encode (.ldVxK x))

section

variable {x : RegId} {k : Key} {s : State}

theorem AtKeyWait.step_eq_exec (h : AtKeyWait x s) : step s = exec (.ldVxK x) s := by
  rw [step_fetch_some h.running h.fetches, decode_encode_ldVxK]

theorem AtKeyWait.step_unresolved (h : AtKeyWait x s) (hl : s.latch = .waiting ∨ ∃ k, s.latch = .pressed k) :
    step s = .next s :=
  h.step_eq_exec.trans (exec_ldVxK_unresolved hl)

/-- The fetch reads neither the keys nor the latch. -/
theorem AtKeyWait.after_keyEvent (h : AtKeyWait x s) (pressed : Bool) : AtKeyWait x (keyEvent k pressed s) :=
  ⟨h.running, h.fetches⟩

theorem AtKeyWait.withLatch (h : AtKeyWait x s) (l : Latch) : AtKeyWait x { s with latch := l } :=
  ⟨h.running, h.fetches⟩

end

/-- Settles O46: by the invariant the word at `pc` is a key-wait, and the step leaves the state as it is. -/
theorem unresolvedWaitStallsEveryCycle : Obligations.UnresolvedWaitStallsEveryCycle := by
  unfold Obligations.UnresolvedWaitStallsEveryCycle
  intro s n hs hrun hl
  have hwaits : s.latch ≠ .idle := by
    obtain hw | ⟨k, hw⟩ := hl <;> rw [hw] <;> nofun
  obtain ⟨x, hfetch⟩ := hs.wait hwaits
  have hat : AtKeyWait x s := ⟨hrun, hfetch⟩
  exact runCycles_of_step_self (hat.step_unresolved hl) n

/-! ### Press and release (R248) -/

/-- The cycle as the first transaction of a schedule: the rest runs from the state that the step answers. -/
theorem runTransactions_instrCycle {s t : State} (h : step s = .next t) (ts : List Transaction) :
    runTransactions (.instrCycle :: ts) s = runTransactions ts t := by
  simp only [runTransactions, transact_instrCycle h]

/-- Cycles that leave the state as it is, however many. -/
theorem runTransactions_instrCycles_of_step_self {s : State} (h : step s = .next s) (n : Nat) :
    runTransactions (List.replicate n .instrCycle) s = some s := by
  induction n with
  | zero => rfl
  | succ n ih => exact (runTransactions_instrCycle h _).trans ih

/-- The state after a cycle at an idle key-wait, which begins to wait, and then a press of `k`. -/
def pressedWait (k : Key) (s : State) : State := keyEvent k true { s with latch := .waiting }

section

variable {x : RegId} {k : Key} {s : State}

@[simp] theorem pressedWait_latch : (pressedWait k s).latch = .pressed k := rfl
@[simp] theorem pressedWait_pc : (pressedWait k s).pc = s.pc := rfl
@[simp] theorem pressedWait_getV (r : RegId) : (pressedWait k s).getV r = s.getV r := rfl

theorem AtKeyWait.after_press (h : AtKeyWait x s) : AtKeyWait x (pressedWait k s) :=
  (h.withLatch .waiting).after_keyEvent true

/-- The sequence begins: the cycle enters the wait, the press gives it its candidate. -/
theorem AtKeyWait.run_press (h : AtKeyWait x s) (hidle : s.latch = .idle) (ts : List Transaction) :
    runTransactions (.instrCycle :: .keyEvent k true :: ts) s = runTransactions ts (pressedWait k s) :=
  runTransactions_instrCycle (h.step_eq_exec.trans (exec_ldVxK_idle hidle)) _

/-- The sequence ends: after the release of the candidate the next cycle completes. -/
theorem AtKeyWait.run_release (h : AtKeyWait x s) (hl : s.latch = .pressed k) :
    ∃ t, runTransactions [.keyEvent k false, .instrCycle] s = some t ∧
      t.pc = s.pc + 2 ∧ (t.getV x).toNat = k.val ∧ t.latch = .idle := by
  have hreleased : (keyEvent k false s).latch = .released k := by
    rw [keyEvent_latch, hl, latchNext_pressed_release]
  obtain ⟨-, -, -, hcompletes⟩ := keyWaitEntersStallsOrCompletes x (keyEvent k false s)
  obtain ⟨t, hexec, hV, hidle, hpc, -⟩ := hcompletes k hreleased
  have hstep : step (keyEvent k false s) = .next t := (h.after_keyEvent false).step_eq_exec.trans hexec
  exact ⟨t, runTransactions_instrCycle hstep [], hpc, hV, hidle⟩

end

/-- Settles O47: the press makes `k` the candidate, cycles stall until its release, and then one completes. -/
theorem keyWaitResolvesOnPressThenRelease : Obligations.KeyWaitResolvesOnPressThenRelease := by
  unfold Obligations.KeyWaitResolvesOnPressThenRelease
  intro s x k j n hrun hidle hfetch hjk
  have hat : AtKeyWait x s := ⟨hrun, hfetch⟩
  have hpressed : AtKeyWait x (pressedWait k s) := hat.after_press
  have hstall : step (pressedWait k s) = .next (pressedWait k s) :=
    hpressed.step_unresolved (.inr ⟨k, pressedWait_latch⟩)
  obtain ⟨t, hresolves, hend⟩ := hpressed.run_release pressedWait_latch
  refine ⟨⟨pressedWait k s, ?pending, pressedWait_pc, pressedWait_getV x, pressedWait_latch⟩,
    ⟨t, ?third, hend⟩, ⟨t, ?second, hend⟩,
    ⟨keyEvent j false (pressedWait k s), ?other, rfl, rfl, latchNext_pressed_releaseOther hjk⟩⟩
  case pending => rw [hat.run_press hidle, runTransactions_instrCycle hstall]; rfl
  case third => rw [hat.run_press hidle, runTransactions_instrCycle hstall, hresolves]
  case second => rw [hat.run_press hidle, hresolves]
  case other =>
    have hkeeps : step (keyEvent j false (pressedWait k s)) = .next (keyEvent j false (pressedWait k s)) :=
      (hpressed.after_keyEvent false).step_unresolved (.inr ⟨k, latchNext_pressed_releaseOther hjk⟩)
    exact (hat.run_press hidle _).trans (runTransactions_instrCycles_of_step_self hkeeps n)

/-! ### The timers (R250 to R262) -/

/-- Settles O49: each copies one value and advances. -/
theorem timerInstructionsCopyTheirRegister : Obligations.TimerInstructionsCopyTheirRegister := by
  unfold Obligations.TimerInstructionsCopyTheirRegister
  exact fun x s => ⟨⟨_, rfl, getV_setV_same _ _ _, rfl, frame_setV s x _⟩,
    ⟨_, rfl, rfl, rfl, frame_of_exec_advances (i := .ldDTVx x) rfl rfl⟩,
    ⟨_, rfl, rfl, rfl, frame_of_exec_advances (i := .ldSTVx x) rfl rfl⟩⟩

/-- Settles O50, by induction on the number of ticks: the first tick takes 1 off each timer that is not 0. -/
theorem timersCountDownAndStopAtZero : Obligations.TimersCountDownAndStopAtZero := by
  unfold Obligations.TimersCountDownAndStopAtZero
  intro n
  induction n with
  | zero => exact fun s => ⟨s, rfl, rfl, rfl, rfl⟩
  | succ n ih =>
    intro s
    obtain ⟨t, hticks, hdt, hst, hrest⟩ := ih (timerTick s)
    rw [timerTick_dt, toNat_decrement] at hdt
    rw [timerTick_st, toNat_decrement] at hst
    exact ⟨t, hticks, by omega, by omega, hrest⟩

/-! ### The host's transactions (R247, R280) -/

/-- A poll changes the queue at most (R218). -/
theorem drawPoll_snd_eq (s : State) : ∃ q, (drawPoll s).2 = { s with dq := q } := by
  cases hq : s.dq with
  | nil => exact ⟨[], by rw [drawPoll_nil hq, withQueue_nil hq]⟩
  | cons c rest => exact ⟨rest, by rw [drawPoll_cons hq]⟩

/-- Settles O51, by the transaction: none writes a field named here but `SetCollision`, which writes `V[0xF]`. -/
theorem externalTransactionsNeverRedirectTheProgram : Obligations.ExternalTransactionsNeverRedirectTheProgram := by
  unfold Obligations.ExternalTransactionsNeverRedirectTheProgram
  intro tr s hext
  cases tr with
  | reset _ _ | instrCycle => cases hext
  | timerTick | keyEvent _ _ | soundTimer | waiting =>
    exact ⟨_, _, rfl, rfl, rfl, rfl, rfl, rfl, rfl, rfl, fun _ _ => rfl⟩
  | setCollision b => exact ⟨_, _, rfl, rfl, rfl, rfl, rfl, rfl, rfl, rfl, fun _ hx => getV_setV_other _ _ hx⟩
  | drawPoll =>
    obtain ⟨q, hq⟩ := drawPoll_snd_eq s
    refine ⟨_, _, rfl, ?_⟩
    rw [hq]
    exact ⟨rfl, rfl, rfl, rfl, rfl, rfl, rfl, fun _ _ => rfl⟩

end Sys2Proof.Machine
end

section
/-! PROOFS of the family `70_reset_and_hazards.md`: forcing 0x1FF to zero (R303). -/

namespace Sys2Proof.Machine

/-- Settles O55: the two memories are canonical, and by `read_loadMemory` both read the font, the image and zeros, with
0x1FF among the zeros between font and image. -/
theorem forcingByte1FFChangesNothing : Obligations.ForcingByte1FFChangesNothing := by
  unfold Obligations.ForcingByte1FFChangesNothing
  intro b image hi
  refine Memory.ext_of_read (wf_loadMemory _ image) (wf_loadMemory _ image) fun a => ?_
  rw [read_loadMemory _ hi, read_loadMemory _ hi]

end Sys2Proof.Machine
end
